-- ==== Sys2Proof/Word.lean ====
section
/-! DEFINITION. The machine's word types (00_scope.md R6): all values are unsigned. A `Duration`, a non-negative
count of `TIME_UNIT`s (R6, R211), is a `Nat`. -/

namespace Sys2Proof

/-- `u4`: a nibble, a register index or a 4-bit instruction field (R6, R100). -/
abbrev Nibble := BitVec 4

/-- `u8`: a byte, the width of a general register and of a memory cell (R6, R20, R50). -/
abbrev Byte := BitVec 8

/-- `u12`: an address, the width of `pc` and `I` (R6, R102). -/
abbrev Address := BitVec 12

/-- `u16`: an instruction word (R6, R70). -/
abbrev Word := BitVec 16

/-- A nibble indexes one of 16 things. -/
theorem Nibble.toNat_lt (i : Nibble) : i.toNat < 16 := i.isLt

end Sys2Proof
end

