-- ==== Sys2Proof/Config.lean ====
section
/-! DEFINITION. What an implementation fixes: the parameters of 00_scope.md R5, and the free values. -/

namespace Sys2Proof

/-! ### Fixed parameters (R5) -/

/-- `MEM_SIZE`: bytes of memory (R5, R50). -/
def Config.memSize : Nat := 4096

/-- `NREGS`: general registers (R5, R20). -/
def Config.nregs : Nat := 16

/-- `FLAG_REG`: the index of the flag register (R5, R22). -/
def Config.flagReg : Nibble := 15#4

/-- `STACK_SLOTS`: the slots of the physical array of the stack (R5). No state of the machine: the stack is the sequence it
holds (92_eei_decisions.md D21, log 29). -/
def Config.stackSlots : Nat := 16

/-- `STACK_USABLE`: pushes that succeed on an empty stack (R5, R108; 90_conflicts.md C1). -/
def Config.stackUsable : Nat := 15

/-- `PC_STEP`: the default advance of `pc` (R5, R26). -/
def Config.pcStep : Nat := 2

/-- The advance of a taken skip (R5, R26). -/
def Config.skipStep : Nat := 4

/-- `FB_W`: framebuffer columns (R5, R231). -/
def Config.fbWidth : Nat := 64

/-- `FB_H`: framebuffer rows (R5, R231). -/
def Config.fbHeight : Nat := 32

/-- `FONT_STRIDE`: bytes per glyph (R5, R183). -/
def Config.fontStride : Nat := 5

/-- `ENTRY`: the default entry address, 0x200 (R5, R244; 90_conflicts.md C7). DESIGN CHOICE, unsafe: log 12. -/
def Config.defaultEntry : Address := 0x200#12

/-! ### Open parameters (R5) -/

/-- `NIBBLE_POLICY`: what happens when a register value above 15 is used as a nibble (R106). -/
inductive NibblePolicy where
  /-- The validated constructor: the instruction raises `NibbleOutOfRange`. -/
  | fault
  /-- The wrapping constructor: the value modulo 16. -/
  | wrap
  deriving DecidableEq, Repr

/-- The three scheduler timers (R210). -/
inductive TimerId where
  | instr
  | delay
  | sound
  deriving DecidableEq, Repr

/-- `TICK_ORDER`: a permutation of the three timers (R216). -/
inductive TickOrder where
  | instrDelaySound
  | instrSoundDelay
  | delayInstrSound
  | delaySoundInstr
  | soundInstrDelay
  | soundDelayInstr
  deriving DecidableEq, Repr

/-- The timers in the order in which their effects are performed (R216). -/
def TickOrder.toList : TickOrder → List TimerId
  | .instrDelaySound => [.instr, .delay, .sound]
  | .instrSoundDelay => [.instr, .sound, .delay]
  | .delayInstrSound => [.delay, .instr, .sound]
  | .delaySoundInstr => [.delay, .sound, .instr]
  | .soundInstrDelay => [.sound, .instr, .delay]
  | .soundDelayInstr => [.sound, .delay, .instr]

/-- `TIME_UNIT`: the length of one unit of a duration, `num / den` nanoseconds, above zero (R5, R211). -/
structure TimeUnit where
  num : Nat
  den : Nat
  positive : 0 < num ∧ 0 < den
  deriving DecidableEq, Repr

/-- The spec's default unit (R211). DESIGN CHOICE, the spec's own (decision D15), safe: log 11. -/
def TimeUnit.nanosecond : TimeUnit := { num := 1, den := 1, positive := by decide }

/-- `ms` milliseconds are a whole number of units (R211). -/
def TimeUnit.exact (u : TimeUnit) (ms : Nat) : Bool := ms * 1000000 * u.den % u.num == 0

/-- `ms` milliseconds in units, where that is a whole number (R211); the whole units in it where it is not, a case to which
the spec gives no meaning. DESIGN CHOICE, safe: log 11. -/
def TimeUnit.unitsOf (u : TimeUnit) (ms : Nat) : Nat := ms * 1000000 * u.den / u.num

/-- The parameters of a running machine, fixed from one reset to the next (R5). -/
structure Policy where
  /-- `TIME_UNIT`, in which every duration of this machine counts: intervals, accumulators, arguments of `advance`. The
  machine itself works alike in any unit (R211), so no operation reads it. -/
  timeUnit     : TimeUnit
  /-- `TICK_ORDER` (R216). -/
  tickOrder    : TickOrder
  /-- `NIBBLE_POLICY` (R106). -/
  nibblePolicy : NibblePolicy
  /-- `STRICT_5_9` (R81). -/
  strict59     : Bool
  /-- `FONT_BASE` (R183); `none` when the host supplies none. -/
  fontBase     : Option Address
  deriving DecidableEq, Repr

/-- The configuration record that `reset` takes (R5, R280). -/
structure Config where
  /-- `INSTR_INTERVAL`, in units of `policy.timeUnit` (R210). -/
  instrInterval : Nat
  /-- `DELAY_INTERVAL`, in the same units (R210). -/
  delayInterval : Nat
  /-- `SOUND_INTERVAL`, in the same units (R210). -/
  soundInterval : Nat
  /-- The other parameters. -/
  policy        : Policy
  deriving DecidableEq, Repr

/-! ### Free values -/

/-- `P.randomByte()`: the byte of the `n`-th draw (R236). Free: nothing constrains it. DESIGN CHOICE, safe: log 5. -/
opaque Config.randomByte : Nat → Byte

/-- `FONT_BASE` of a machine whose host supplies none: the spec gives no default (R183). Free: nothing constrains it.
DESIGN CHOICE, safe: log 6. -/
opaque Config.freeFontBase : Address

/-! ### Defaults (R5) -/

/-- `INSTR_INTERVAL`'s default, 2 ms, in a unit (R5, R210). -/
def Config.defaultInstrInterval (u : TimeUnit) : Nat := u.unitsOf 2

/-- `DELAY_INTERVAL`'s default, 16 ms, in a unit (R5, R210). -/
def Config.defaultDelayInterval (u : TimeUnit) : Nat := u.unitsOf 16

/-- `SOUND_INTERVAL`'s default, 16 ms, in a unit (R5, R210). -/
def Config.defaultSoundInterval (u : TimeUnit) : Nat := u.unitsOf 16

/-- The defaults of the open parameters (R5). DESIGN CHOICE, unsafe: log 8, 9, 10; the unit is log 11. -/
def Config.defaultPolicy : Policy :=
  { timeUnit := .nanosecond, tickOrder := .instrDelaySound, nibblePolicy := .fault, strict59 := false, fontBase := none }

/-- The configuration with every default but the unit, which is `u` (R5, R211). -/
def Config.defaultIn (u : TimeUnit) : Config :=
  { instrInterval := Config.defaultInstrInterval u
    delayInterval := Config.defaultDelayInterval u
    soundInterval := Config.defaultSoundInterval u
    policy := { Config.defaultPolicy with timeUnit := u } }

/-- The default configuration (R5). -/
def Config.default : Config := Config.defaultIn .nanosecond

/-- What the host hands to `reset` (R280, R283): the loader's image and entry address, extra regions of initial memory
(glyphs, for example), the configuration, and whether the platform is created anew as well (R281, log 15). -/
structure Launch where
  /-- The program image, copied to `entry` and the addresses after it (R244). -/
  image         : List Byte
  /-- The entry address the loader reports (R244). -/
  entry         : Address
  /-- Bytes the loader writes elsewhere, in this order and before the image, so that where an address is written twice the
  later write stays (R244, R283; log 39). -/
  extra         : List (Address × Byte)
  /-- The configuration (R5). -/
  config        : Config
  /-- Whether the host creates the platform anew too (R281). -/
  freshPlatform : Bool
  deriving DecidableEq, Repr

end Sys2Proof
end

