-- ==== Sys2Proof/Syntax.lean ====
section
/-! DEFINITION. The instruction set, one constructor per row of spec/opcode_table.json (30_encoding.md R75), what the
decoder answers for a word that is none of them, and the calls of the host. Operand fields carry their widths in their
types (R71, R72). -/

namespace Sys2Proof

/-- The 34 variants (R75), in the table's order. `x`, `y` are register indices, `n` a sprite height, `nn` an 8-bit
immediate, `nnn` a 12-bit address (R71). -/
inductive Instr where
  /-- `00E0` ClearScreen (R190). -/
  | clearScreen
  /-- `00EE` Return (R142). -/
  | ret
  /-- `1NNN` Jump (R140). -/
  | jump (nnn : Address)
  /-- `2NNN` Call (R141). -/
  | call (nnn : Address)
  /-- `3XNN` SkipEqImm (R151). -/
  | skipEqImm (x : Nibble) (nn : Byte)
  /-- `4XNN` SkipNeImm (R152). -/
  | skipNeImm (x : Nibble) (nn : Byte)
  /-- `5XY0` SkipEqReg (R153). -/
  | skipEqReg (x y : Nibble)
  /-- `6XNN` LoadImm (R161). -/
  | loadImm (x : Nibble) (nn : Byte)
  /-- `7XNN` AddImm (R162). -/
  | addImm (x : Nibble) (nn : Byte)
  /-- `8XY0` Copy (R163). -/
  | copy (x y : Nibble)
  /-- `8XY1` Or (R164). -/
  | or (x y : Nibble)
  /-- `8XY2` And (R165). -/
  | and (x y : Nibble)
  /-- `8XY3` Xor (R166). -/
  | xor (x y : Nibble)
  /-- `8XY4` AddReg (R167). -/
  | addReg (x y : Nibble)
  /-- `8XY5` SubReg (R168). -/
  | subReg (x y : Nibble)
  /-- `8XY6` ShiftRight (R169). -/
  | shiftRight (x y : Nibble)
  /-- `8XY7` SubRev (R170). -/
  | subRev (x y : Nibble)
  /-- `8XYE` ShiftLeft (R171). -/
  | shiftLeft (x y : Nibble)
  /-- `9XY0` SkipNeReg (R154). -/
  | skipNeReg (x y : Nibble)
  /-- `ANNN` LoadIndex (R181). -/
  | loadIndex (nnn : Address)
  /-- `BNNN` JumpWithOffset (R143). -/
  | jumpWithOffset (nnn : Address)
  /-- `CXNN` Random (R172). -/
  | random (x : Nibble) (nn : Byte)
  /-- `DXYN` Draw (R191). -/
  | draw (x y n : Nibble)
  /-- `EX9E` SkipKeyDown (R155). -/
  | skipKeyDown (x : Nibble)
  /-- `EXA1` SkipKeyUp (R156). -/
  | skipKeyUp (x : Nibble)
  /-- `FX07` GetDelay (R200). -/
  | getDelay (x : Nibble)
  /-- `FX0A` WaitKey (R201). -/
  | waitKey (x : Nibble)
  /-- `FX15` SetDelay (R202). -/
  | setDelay (x : Nibble)
  /-- `FX18` SetSound (R203). -/
  | setSound (x : Nibble)
  /-- `FX1E` AddIndex (R182). -/
  | addIndex (x : Nibble)
  /-- `FX29` FontAddr (R183). -/
  | fontAddr (x : Nibble)
  /-- `FX33` Bcd (R184). -/
  | bcd (x : Nibble)
  /-- `FX55` StoreRegs (R185). -/
  | storeRegs (x : Nibble)
  /-- `FX65` LoadRegs (R186). -/
  | loadRegs (x : Nibble)
  deriving DecidableEq, Repr

/-- What `decode` answers for a word that matches no row: `UnknownOpcode(word)`, carrying the raw word (R73, R77). -/
inductive DecodeError where
  | unknownOpcode (w : Word)
  deriving DecidableEq, Repr

/-- The calls the host makes on the machine (49_platform.md R237, R245). -/
inductive HostCall where
  /-- `reset(image, entry, config)` (R280). -/
  | reset (l : Launch)
  /-- `runOneCycle()` (R120). -/
  | runOneCycle
  /-- `advance(D)` (R214). -/
  | advance (d : Nat)
  /-- `advanceOneInstructionTick()` (R218). -/
  | advanceOneInstructionTick
  /-- `keyDown(k)` (R237). -/
  | keyDown (k : Nibble)
  /-- `keyUp(k)` (R237). -/
  | keyUp (k : Nibble)
  deriving DecidableEq, Repr

end Sys2Proof
end

