-- ==== Sys2Proof/WellFormed.lean ====
section
/-! DEFINITION. When a term is one the spec gives a meaning. The operand bounds of an instruction (R72) are carried by
its field types, so every instruction is well formed; a launch has bounds of its own (R211, R244), and a host call is
well formed when its launch is. -/

namespace Sys2Proof

/-- A register index or a sprite height is in 0..15 (R72, R100). -/
def nibbleInRange (x : Nibble) : Bool := x.toNat ≤ 15

/-- An 8-bit immediate is in 0..255 (R72). -/
def byteInRange (nn : Byte) : Bool := nn.toNat ≤ 255

/-- An address immediate is in 0..4095 (R72, R102). -/
def addressInRange (nnn : Address) : Bool := nnn.toNat ≤ 4095

/-- Every operand is in the range its field admits (R72). -/
def Instr.wellFormed : Instr → Bool
  | .clearScreen => true
  | .ret => true
  | .jump nnn => addressInRange nnn
  | .call nnn => addressInRange nnn
  | .skipEqImm x nn => nibbleInRange x && byteInRange nn
  | .skipNeImm x nn => nibbleInRange x && byteInRange nn
  | .skipEqReg x y => nibbleInRange x && nibbleInRange y
  | .loadImm x nn => nibbleInRange x && byteInRange nn
  | .addImm x nn => nibbleInRange x && byteInRange nn
  | .copy x y => nibbleInRange x && nibbleInRange y
  | .or x y => nibbleInRange x && nibbleInRange y
  | .and x y => nibbleInRange x && nibbleInRange y
  | .xor x y => nibbleInRange x && nibbleInRange y
  | .addReg x y => nibbleInRange x && nibbleInRange y
  | .subReg x y => nibbleInRange x && nibbleInRange y
  | .shiftRight x y => nibbleInRange x && nibbleInRange y
  | .subRev x y => nibbleInRange x && nibbleInRange y
  | .shiftLeft x y => nibbleInRange x && nibbleInRange y
  | .skipNeReg x y => nibbleInRange x && nibbleInRange y
  | .loadIndex nnn => addressInRange nnn
  | .jumpWithOffset nnn => addressInRange nnn
  | .random x nn => nibbleInRange x && byteInRange nn
  | .draw x y n => nibbleInRange x && nibbleInRange y && nibbleInRange n
  | .skipKeyDown x => nibbleInRange x
  | .skipKeyUp x => nibbleInRange x
  | .getDelay x => nibbleInRange x
  | .waitKey x => nibbleInRange x
  | .setDelay x => nibbleInRange x
  | .setSound x => nibbleInRange x
  | .addIndex x => nibbleInRange x
  | .fontAddr x => nibbleInRange x
  | .bcd x => nibbleInRange x
  | .storeRegs x => nibbleInRange x
  | .loadRegs x => nibbleInRange x

/-- The image fits in memory above the entry address (R244; 92_eei_decisions.md D25). -/
def Launch.imageFits (l : Launch) : Bool := l.image.length ≤ Config.memSize - l.entry.toNat

/-- Every tick interval is greater than zero (R211; 92_eei_decisions.md D15). -/
def Config.intervalsPositive (c : Config) : Bool :=
  0 < c.instrInterval && 0 < c.delayInterval && 0 < c.soundInterval

/-- The launches to which the spec gives a meaning (R211, R244). -/
def Launch.wellFormed (l : Launch) : Bool := l.imageFits && l.config.intervalsPositive

/-- A host call is well formed when its launch is (R280); the other calls carry no bound. -/
def HostCall.wellFormed : HostCall → Bool
  | .reset l => l.wellFormed
  | .runOneCycle => true
  | .advance _ => true
  | .advanceOneInstructionTick => true
  | .keyDown _ => true
  | .keyUp _ => true

end Sys2Proof
end

