-- ==== Sys2Proof/Decode.lean ====
section
/-! DEFINITION. The instruction word's fields (30_encoding.md R71), the decoder (R73, R74), the encoder and the opcode
table (R75), and the assembler text (R83). The bit patterns are the spec's table, which the spec itself marks as the
standard ones (92_eei_decisions.md D2, log 19). -/

namespace Sys2Proof

/-! ### The opcode view (R71, R105) -/

/-- `OP = w[15:12]` (R71). -/
def fieldOP (w : Word) : Nibble := w.extractLsb' 12 4

/-- `X = w[11:8]` (R71). -/
def fieldX (w : Word) : Nibble := w.extractLsb' 8 4

/-- `Y = w[7:4]` (R71). -/
def fieldY (w : Word) : Nibble := w.extractLsb' 4 4

/-- `N = w[3:0]` (R71). -/
def fieldN (w : Word) : Nibble := w.extractLsb' 0 4

/-- `NN = w[7:0]` (R71). -/
def fieldNN (w : Word) : Byte := w.extractLsb' 0 8

/-- `NNN = w[11:0]` (R71). -/
def fieldNNN (w : Word) : Address := w.extractLsb' 0 12

/-- `HI = w[15:8]`, which no decoding rule uses (R71, R82). -/
def fieldHI (w : Word) : Byte := w.extractLsb' 8 8

/-- The big-endian word of two bytes, the first at the lower address (R55, R70). -/
def wordOfBytes (hi lo : Byte) : Word := hi ++ lo

/-- The two bytes of a word as memory holds them, high byte first (R55, R70). -/
def bytesOfWord (w : Word) : Byte × Byte := (fieldHI w, fieldNN w)

/-! ### The decoder (R74) -/

/-- Family 0: two full-word matches (R74, R78). -/
def decodeFamily0 (w : Word) : Except DecodeError Instr :=
  if w = 0x00E0#16 then .ok .clearScreen
  else if w = 0x00EE#16 then .ok .ret
  else .error (.unknownOpcode w)

/-- Families 5 and 9: the low nibble is ignored unless `STRICT_5_9` (R81). -/
def decodeFamily59 (strict : Bool) (w : Word) (i : Nibble → Nibble → Instr) : Except DecodeError Instr :=
  if strict && fieldN w ≠ 0x0#4 then .error (.unknownOpcode w) else .ok (i (fieldX w) (fieldY w))

/-- Family 8: selected by the low nibble (R74, R79). -/
def decodeFamily8 (w : Word) : Except DecodeError Instr :=
  match fieldN w with
  | 0x0#4 => .ok (.copy (fieldX w) (fieldY w))
  | 0x1#4 => .ok (.or (fieldX w) (fieldY w))
  | 0x2#4 => .ok (.and (fieldX w) (fieldY w))
  | 0x3#4 => .ok (.xor (fieldX w) (fieldY w))
  | 0x4#4 => .ok (.addReg (fieldX w) (fieldY w))
  | 0x5#4 => .ok (.subReg (fieldX w) (fieldY w))
  | 0x6#4 => .ok (.shiftRight (fieldX w) (fieldY w))
  | 0x7#4 => .ok (.subRev (fieldX w) (fieldY w))
  | 0xE#4 => .ok (.shiftLeft (fieldX w) (fieldY w))
  | _ => .error (.unknownOpcode w)

/-- Family E: selected by the low byte (R74, R80). -/
def decodeFamilyE (w : Word) : Except DecodeError Instr :=
  match fieldNN w with
  | 0x9E#8 => .ok (.skipKeyDown (fieldX w))
  | 0xA1#8 => .ok (.skipKeyUp (fieldX w))
  | _ => .error (.unknownOpcode w)

/-- Family F: selected by the low byte (R74, R80). -/
def decodeFamilyF (w : Word) : Except DecodeError Instr :=
  match fieldNN w with
  | 0x07#8 => .ok (.getDelay (fieldX w))
  | 0x0A#8 => .ok (.waitKey (fieldX w))
  | 0x15#8 => .ok (.setDelay (fieldX w))
  | 0x18#8 => .ok (.setSound (fieldX w))
  | 0x1E#8 => .ok (.addIndex (fieldX w))
  | 0x29#8 => .ok (.fontAddr (fieldX w))
  | 0x33#8 => .ok (.bcd (fieldX w))
  | 0x55#8 => .ok (.storeRegs (fieldX w))
  | 0x65#8 => .ok (.loadRegs (fieldX w))
  | _ => .error (.unknownOpcode w)

/-- `decode(w)` (R73, R74): total on every word; `strict` is `STRICT_5_9` (R81). -/
def decode (strict : Bool) (w : Word) : Except DecodeError Instr :=
  match fieldOP w with
  | 0x0#4 => decodeFamily0 w
  | 0x1#4 => .ok (.jump (fieldNNN w))
  | 0x2#4 => .ok (.call (fieldNNN w))
  | 0x3#4 => .ok (.skipEqImm (fieldX w) (fieldNN w))
  | 0x4#4 => .ok (.skipNeImm (fieldX w) (fieldNN w))
  | 0x5#4 => decodeFamily59 strict w .skipEqReg
  | 0x6#4 => .ok (.loadImm (fieldX w) (fieldNN w))
  | 0x7#4 => .ok (.addImm (fieldX w) (fieldNN w))
  | 0x8#4 => decodeFamily8 w
  | 0x9#4 => decodeFamily59 strict w .skipNeReg
  | 0xA#4 => .ok (.loadIndex (fieldNNN w))
  | 0xB#4 => .ok (.jumpWithOffset (fieldNNN w))
  | 0xC#4 => .ok (.random (fieldX w) (fieldNN w))
  | 0xD#4 => .ok (.draw (fieldX w) (fieldY w) (fieldN w))
  | 0xE#4 => decodeFamilyE w
  | _ => decodeFamilyF w

/-! ### The encoder (R71, R75) -/

/-- A word from its high nibble and the 12-bit field (R71). -/
def wordNNN (op : Nibble) (nnn : Address) : Word := op ++ nnn

/-- A word from its high nibble, a register index and the low byte (R71). -/
def wordXNN (op x : Nibble) (nn : Byte) : Word := op ++ x ++ nn

/-- A word from its four nibbles (R71). -/
def wordXYN (op x y n : Nibble) : Word := op ++ x ++ y ++ n

/-- The word of an instruction; families 5 and 9 in their canonical form, low nibble 0 (R75, R81). -/
def encode : Instr → Word
  | .clearScreen => 0x00E0#16
  | .ret => 0x00EE#16
  | .jump nnn => wordNNN 0x1#4 nnn
  | .call nnn => wordNNN 0x2#4 nnn
  | .skipEqImm x nn => wordXNN 0x3#4 x nn
  | .skipNeImm x nn => wordXNN 0x4#4 x nn
  | .skipEqReg x y => wordXYN 0x5#4 x y 0x0#4
  | .loadImm x nn => wordXNN 0x6#4 x nn
  | .addImm x nn => wordXNN 0x7#4 x nn
  | .copy x y => wordXYN 0x8#4 x y 0x0#4
  | .or x y => wordXYN 0x8#4 x y 0x1#4
  | .and x y => wordXYN 0x8#4 x y 0x2#4
  | .xor x y => wordXYN 0x8#4 x y 0x3#4
  | .addReg x y => wordXYN 0x8#4 x y 0x4#4
  | .subReg x y => wordXYN 0x8#4 x y 0x5#4
  | .shiftRight x y => wordXYN 0x8#4 x y 0x6#4
  | .subRev x y => wordXYN 0x8#4 x y 0x7#4
  | .shiftLeft x y => wordXYN 0x8#4 x y 0xE#4
  | .skipNeReg x y => wordXYN 0x9#4 x y 0x0#4
  | .loadIndex nnn => wordNNN 0xA#4 nnn
  | .jumpWithOffset nnn => wordNNN 0xB#4 nnn
  | .random x nn => wordXNN 0xC#4 x nn
  | .draw x y n => wordXYN 0xD#4 x y n
  | .skipKeyDown x => wordXNN 0xE#4 x 0x9E#8
  | .skipKeyUp x => wordXNN 0xE#4 x 0xA1#8
  | .getDelay x => wordXNN 0xF#4 x 0x07#8
  | .waitKey x => wordXNN 0xF#4 x 0x0A#8
  | .setDelay x => wordXNN 0xF#4 x 0x15#8
  | .setSound x => wordXNN 0xF#4 x 0x18#8
  | .addIndex x => wordXNN 0xF#4 x 0x1E#8
  | .fontAddr x => wordXNN 0xF#4 x 0x29#8
  | .bcd x => wordXNN 0xF#4 x 0x33#8
  | .storeRegs x => wordXNN 0xF#4 x 0x55#8
  | .loadRegs x => wordXNN 0xF#4 x 0x65#8

/-! ### The opcode table as data (R75) -/

/-- The mask of an instruction's row: the bits that select it (R75); `strict` is `STRICT_5_9` (R81). -/
def Instr.mask (strict : Bool) : Instr → Word
  | .clearScreen => 0xFFFF#16
  | .ret => 0xFFFF#16
  | .jump _ => 0xF000#16
  | .call _ => 0xF000#16
  | .skipEqImm _ _ => 0xF000#16
  | .skipNeImm _ _ => 0xF000#16
  | .skipEqReg _ _ => if strict then 0xF00F#16 else 0xF000#16
  | .loadImm _ _ => 0xF000#16
  | .addImm _ _ => 0xF000#16
  | .copy _ _ => 0xF00F#16
  | .or _ _ => 0xF00F#16
  | .and _ _ => 0xF00F#16
  | .xor _ _ => 0xF00F#16
  | .addReg _ _ => 0xF00F#16
  | .subReg _ _ => 0xF00F#16
  | .shiftRight _ _ => 0xF00F#16
  | .subRev _ _ => 0xF00F#16
  | .shiftLeft _ _ => 0xF00F#16
  | .skipNeReg _ _ => if strict then 0xF00F#16 else 0xF000#16
  | .loadIndex _ => 0xF000#16
  | .jumpWithOffset _ => 0xF000#16
  | .random _ _ => 0xF000#16
  | .draw _ _ _ => 0xF000#16
  | .skipKeyDown _ => 0xF0FF#16
  | .skipKeyUp _ => 0xF0FF#16
  | .getDelay _ => 0xF0FF#16
  | .waitKey _ => 0xF0FF#16
  | .setDelay _ => 0xF0FF#16
  | .setSound _ => 0xF0FF#16
  | .addIndex _ => 0xF0FF#16
  | .fontAddr _ => 0xF0FF#16
  | .bcd _ => 0xF0FF#16
  | .storeRegs _ => 0xF0FF#16
  | .loadRegs _ => 0xF0FF#16

/-- The match of an instruction's row: the value of the selecting bits (R75). -/
def Instr.matchBits : Instr → Word
  | .clearScreen => 0x00E0#16
  | .ret => 0x00EE#16
  | .jump _ => 0x1000#16
  | .call _ => 0x2000#16
  | .skipEqImm _ _ => 0x3000#16
  | .skipNeImm _ _ => 0x4000#16
  | .skipEqReg _ _ => 0x5000#16
  | .loadImm _ _ => 0x6000#16
  | .addImm _ _ => 0x7000#16
  | .copy _ _ => 0x8000#16
  | .or _ _ => 0x8001#16
  | .and _ _ => 0x8002#16
  | .xor _ _ => 0x8003#16
  | .addReg _ _ => 0x8004#16
  | .subReg _ _ => 0x8005#16
  | .shiftRight _ _ => 0x8006#16
  | .subRev _ _ => 0x8007#16
  | .shiftLeft _ _ => 0x800E#16
  | .skipNeReg _ _ => 0x9000#16
  | .loadIndex _ => 0xA000#16
  | .jumpWithOffset _ => 0xB000#16
  | .random _ _ => 0xC000#16
  | .draw _ _ _ => 0xD000#16
  | .skipKeyDown _ => 0xE09E#16
  | .skipKeyUp _ => 0xE0A1#16
  | .getDelay _ => 0xF007#16
  | .waitKey _ => 0xF00A#16
  | .setDelay _ => 0xF015#16
  | .setSound _ => 0xF018#16
  | .addIndex _ => 0xF01E#16
  | .fontAddr _ => 0xF029#16
  | .bcd _ => 0xF033#16
  | .storeRegs _ => 0xF055#16
  | .loadRegs _ => 0xF065#16

/-- One instruction of each row, in the table's order (R75). -/
def rowSamples : List Instr :=
  let x : Nibble := 0#4
  let nn : Byte := 0#8
  let nnn : Address := 0#12
  [.clearScreen, .ret, .jump nnn, .call nnn, .skipEqImm x nn, .skipNeImm x nn, .skipEqReg x x, .loadImm x nn,
    .addImm x nn, .copy x x, .or x x, .and x x, .xor x x, .addReg x x, .subReg x x, .shiftRight x x, .subRev x x,
    .shiftLeft x x, .skipNeReg x x, .loadIndex nnn, .jumpWithOffset nnn, .random x nn, .draw x x x, .skipKeyDown x,
    .skipKeyUp x, .getDelay x, .waitKey x, .setDelay x, .setSound x, .addIndex x, .fontAddr x, .bcd x, .storeRegs x,
    .loadRegs x]

/-- A word selects the row of `i` when `w AND mask = match` (R75). -/
def Instr.selectedBy (strict : Bool) (i : Instr) (w : Word) : Bool :=
  w &&& i.mask strict == i.matchBits

/-! ### The host's view of a table word -/

/-- The first word of an instruction whose bits are `w`, `nbits` of them given and the rest 0. -/
def tableWord (nbits w : Nat) : Word := BitVec.ofNat 16 (w % 2 ^ nbits)

/-- What the decoder reads, with the default `STRICT_5_9`, from the two bytes of a table word laid out big-endian
(R55, R70, R73). -/
def decodeTableWord (nbits w : Nat) : Option Instr :=
  let b := bytesOfWord (tableWord nbits w)
  match decode Config.defaultPolicy.strict59 (wordOfBytes b.1 b.2) with
  | .ok i => some i
  | .error _ => none

/-! ### Assembler text (R83) -/

/-- One hexadecimal digit (R83). -/
def hexDigit (x : Nibble) : String :=
  String.singleton ("0123456789ABCDEF".toList.getD x.toNat (Char.ofNat 48))

/-- A register name: V and one hexadecimal digit (R83). -/
def asmReg (x : Nibble) : String := "V" ++ hexDigit x

/-- An 8-bit immediate: two hexadecimal digits without prefix (R83). -/
def asmNN (nn : Byte) : String := hexDigit (nn.extractLsb' 4 4) ++ hexDigit (nn.extractLsb' 0 4)

/-- A 12-bit immediate: three hexadecimal digits without prefix (R83). -/
def asmNNN (nnn : Address) : String :=
  hexDigit (nnn.extractLsb' 8 4) ++ hexDigit (nnn.extractLsb' 4 4) ++ hexDigit (nnn.extractLsb' 0 4)

/-- The assembler line of an instruction: the assembler column of the opcode map (R75, R83). -/
def Instr.asm : Instr → String
  | .clearScreen => "CLS"
  | .ret => "RET"
  | .jump nnn => "JP " ++ asmNNN nnn
  | .call nnn => "CALL " ++ asmNNN nnn
  | .skipEqImm x nn => "SE " ++ asmReg x ++ ", " ++ asmNN nn
  | .skipNeImm x nn => "SNE " ++ asmReg x ++ ", " ++ asmNN nn
  | .skipEqReg x y => "SE " ++ asmReg x ++ ", " ++ asmReg y
  | .loadImm x nn => "LD " ++ asmReg x ++ ", " ++ asmNN nn
  | .addImm x nn => "ADD " ++ asmReg x ++ ", " ++ asmNN nn
  | .copy x y => "LD " ++ asmReg x ++ ", " ++ asmReg y
  | .or x y => "OR " ++ asmReg x ++ ", " ++ asmReg y
  | .and x y => "AND " ++ asmReg x ++ ", " ++ asmReg y
  | .xor x y => "XOR " ++ asmReg x ++ ", " ++ asmReg y
  | .addReg x y => "ADD " ++ asmReg x ++ ", " ++ asmReg y
  | .subReg x y => "SUB " ++ asmReg x ++ ", " ++ asmReg y
  | .shiftRight x y => "SHR " ++ asmReg x ++ ", " ++ asmReg y
  | .subRev x y => "SUBN " ++ asmReg x ++ ", " ++ asmReg y
  | .shiftLeft x y => "SHL " ++ asmReg x ++ ", " ++ asmReg y
  | .skipNeReg x y => "SNE " ++ asmReg x ++ ", " ++ asmReg y
  | .loadIndex nnn => "LD I, " ++ asmNNN nnn
  | .jumpWithOffset nnn => "JP V0, " ++ asmNNN nnn
  | .random x nn => "RND " ++ asmReg x ++ ", " ++ asmNN nn
  | .draw x y n => "DRW " ++ asmReg x ++ ", " ++ asmReg y ++ ", " ++ hexDigit n
  | .skipKeyDown x => "SKP " ++ asmReg x
  | .skipKeyUp x => "SKNP " ++ asmReg x
  | .getDelay x => "LD " ++ asmReg x ++ ", DT"
  | .waitKey x => "LD " ++ asmReg x ++ ", K"
  | .setDelay x => "LD DT, " ++ asmReg x
  | .setSound x => "LD ST, " ++ asmReg x
  | .addIndex x => "ADD I, " ++ asmReg x
  | .fontAddr x => "LD F, " ++ asmReg x
  | .bcd x => "LD B, " ++ asmReg x
  | .storeRegs x => "LD [I], " ++ asmReg x
  | .loadRegs x => "LD " ++ asmReg x ++ ", [I]"

end Sys2Proof
end

