-- ==== Sys2Proof/Machine/State.lean ====
section
/-! DEFINITION. The machine's state as plain data (10_state.md), the spec's faults (60_exceptions.md R266), the
refusals, and the state after reset (R38, R280). -/

namespace Sys2Proof.Machine

/-- The spec's faults (R250, R266). Each is an error a cycle returns: the machine goes on, crashed (R256; 93 U22), so a
raise is a NEXT state whose `result` holds the fault, and no step ever ends in `Host.Outcome.fault`. Safe: the effect is
the one R256 gives (log 1). -/
inductive Fault where
  /-- Raised by the decode step of a cycle on a word that matches no row (R251). Safe. -/
  | unknownOpcode (w : Word)
  /-- Raised by `SkipKeyDown`, `SkipKeyUp`, `FontAddr` on a register value above 15 when `NIBBLE_POLICY` is `fault`
  (R106, R252). Safe. -/
  | nibbleOutOfRange (raw : Nat)
  /-- Raised by nothing: the validated address constructor's failure, which no rule reaches (R107, R252). Safe. -/
  | addressOutOfRange (raw : Nat)
  /-- Raised by `Call` when the stack holds 15 entries (R253). Safe. -/
  | stackOverflow
  /-- Raised by `Return` when the stack is empty (R254). Safe. -/
  | stackUnderflow
  /-- Answered by a cycle on a machine that is already crashed (R255). Safe. -/
  | alreadyCrashed
  deriving DecidableEq, Repr

/-- Why a step gives a host call no meaning. No instruction is refused. -/
inductive Refusal where
  /-- An instruction without a meaning yet; no arm of `exec` answers it. Safe. -/
  | notModelled (mnemonic : String)
  /-- The host's `reset` with an image that does not fit above the entry address: the spec gives it no meaning (R244;
  93 U13). Safe (log 16). -/
  | imageTooLong
  /-- The host's `reset` with a tick interval of zero (R211; 93 U10). Safe (log 16). -/
  | zeroInterval
  /-- The host's `advance` over a timer whose accumulated time is not below its interval, where the spec's loop would
  not terminate; no run reaches such a state (R211, R220). Safe (log 17). -/
  | timerOutOfRange
  deriving DecidableEq, Repr

/-- What a core operation returned: `Ok(())` or `Err(f)` (R130, R245). -/
inductive CycleResult where
  | ok
  | err (f : Fault)
  deriving DecidableEq, Repr

/-- A scheduler timer: accumulated elapsed time and fixed tick interval (R32, R210). -/
structure Timer where
  acc      : Nat
  interval : Nat
  deriving DecidableEq, Repr

/-- Memory: (address, byte) pairs, addresses strictly rising, no entry equal to what an unlisted address reads as
(`Memory.wf`, Machine/Ops.lean; log 18). -/
abbrev Memory := List Host.Cell

/-- The framebuffer: a grid of 32 rows of 64 boolean cells in row-major order, cell `(r, c)` being element `64 * r + c`
(R231). -/
structure Framebuffer where
  cells : List Bool
  size  : cells.length = 2048
  deriving DecidableEq, Repr

/-- Every cell off (R233). -/
def Framebuffer.off : Framebuffer := { cells := List.replicate 2048 false, size := List.length_replicate }

/-- The machine's state: every piece of state the spec names (10_state.md section 1), the parameters it runs under
(R5), and three fields of the model's own (`result`, `draws`, `hostQueue`). -/
structure State where
  /-- `x[0]`..`x[15]` (R20); `x[15]` is the flag register (R22). -/
  regs      : Vector Byte 16
  /-- `I` (R24). -/
  index     : Address
  /-- `pc` (R25). -/
  pc        : Address
  /-- The call stack, oldest return address first (R28). -/
  stack     : List Address
  /-- `await` (R30). -/
  awaitKey  : Option Nibble
  /-- `crashed` (R31). -/
  crashed   : Bool
  /-- `mem` (R50). -/
  mem       : Memory
  /-- `t_instr` (R32). -/
  tInstr    : Timer
  /-- `t_delay` (R32). -/
  tDelay    : Timer
  /-- `t_sound` (R32). -/
  tSound    : Timer
  /-- `DT` (R34). -/
  dt        : Byte
  /-- `ST` (R34). -/
  st        : Byte
  /-- `fb` (R35). -/
  fb        : Framebuffer
  /-- `keys[0]`..`keys[15]` (R36). -/
  keys      : Vector Bool 16
  /-- `released` (R36). -/
  released  : Option Nibble
  /-- The parameters of this machine (R5), written by `reset` only. -/
  policy    : Policy
  /-- The model's own: what the last core operation returned (log 2). -/
  result    : CycleResult
  /-- The model's own: how many random bytes have been drawn (log 5). -/
  draws     : Nat
  /-- The model's own: the calls the host has lined up, oldest first (log 3). -/
  hostQueue : List HostCall
  deriving DecidableEq, Repr

/-- What a step or a meaning answers. -/
abbrev Answer := Host.Outcome State Fault Refusal

/-- The machine right after reset with the default configuration and no image (R38, R280; log 4, 12, 13, 14). -/
def State.reset : State :=
  { regs := Vector.replicate 16 0#8
    index := 0#12
    pc := Config.defaultEntry
    stack := []
    awaitKey := none
    crashed := false
    mem := []
    tInstr := { acc := 0, interval := Config.defaultInstrInterval .nanosecond }
    tDelay := { acc := 0, interval := Config.defaultDelayInterval .nanosecond }
    tSound := { acc := 0, interval := Config.defaultSoundInterval .nanosecond }
    dt := 0#8
    st := 0#8
    fb := Framebuffer.off
    keys := Vector.replicate 16 false
    released := none
    policy := Config.defaultPolicy
    result := .ok
    draws := 0
    hostQueue := [] }

end Sys2Proof.Machine
end

