-- ==== Sys2Proof/Machine/Operands.lean ====
section
/-! DEFINITION. Operand forms: the bounded value constructors (40_values_and_stack.md R100 to R106) and the widening
of a value. An instruction's register, immediate and address fields are used as they are (R72). -/

namespace Sys2Proof.Machine

/-- `nibble_checked(raw)`, the validated constructor (R100). -/
def nibbleChecked (raw : Nat) : Except Fault Nibble :=
  if raw ≤ 15 then .ok (BitVec.ofNat 4 raw) else .error (.nibbleOutOfRange raw)

/-- `nibble_wrap(raw)`, the wrapping constructor (R101). -/
def nibbleWrap (raw : Nat) : Nibble := BitVec.ofNat 4 raw

/-- `address_checked(raw)`, the validated constructor (R102). -/
def addressChecked (raw : Nat) : Except Fault Address :=
  if raw ≤ 4095 then .ok (BitVec.ofNat 12 raw) else .error (.addressOutOfRange raw)

/-- `address_wrap(raw)`, the wrapping constructor (R103). -/
def addressWrap (raw : Nat) : Address := BitVec.ofNat 12 raw

/-- `addr_add(a, k)`: ring addition of a signed offset, which never fails (R104). -/
def addrAdd (a : Address) (k : Int) : Address := BitVec.ofInt 12 (a.toNat + k)

/-- `nib_of_reg(v)`: a register's value where a nibble is wanted, under `NIBBLE_POLICY` (R106). -/
def nibOfReg (p : NibblePolicy) (v : Byte) : Except Fault Nibble :=
  match p with
  | .fault => nibbleChecked v.toNat
  | .wrap => .ok (nibbleWrap v.toNat)

/-- `zext_8(key)`: a key's nibble as a register value (R7, R123). -/
def zext8 (k : Nibble) : Byte := k.setWidth 8

end Sys2Proof.Machine
end

