-- ==== Sys2Proof/Machine/Flags.lean ====
section
/-! DEFINITION. The results and the flag values of the arithmetic, logic and shift instructions (44_load_alu.md R173),
and of a draw. Operands are taken to integers, the exact result is computed, and it is narrowed at the end. -/

namespace Sys2Proof.Machine

/-- A condition as the flag register shows it: exactly 0 or 1 (R22). -/
def flagOf (b : Bool) : Byte := if b then 1#8 else 0#8

/-- `(a + b) mod 256` (R167, R173). -/
def sumResult (a b : Byte) : Byte := BitVec.ofNat 8 (a.toNat + b.toNat)

/-- The carry out: 1 exactly when the exact sum is above 255 (R167, R173). -/
def carryFlag (a b : Byte) : Byte := flagOf (255 < a.toNat + b.toNat)

/-- `(a - b) mod 256` (R168, R173). -/
def diffResult (a b : Byte) : Byte := BitVec.ofInt 8 ((a.toNat : Int) - b.toNat)

/-- The inverted borrow: 1 exactly when the minuend `a` is at least the subtrahend `b` (R168, R173). -/
def notBorrowFlag (a b : Byte) : Byte := flagOf (b.toNat ≤ a.toNat)

/-- `s >> 1`, logical (R169). -/
def shiftRightResult (s : Byte) : Byte := s >>> 1

/-- The bit a right shift puts out: bit 0 (R169). -/
def shiftRightFlag (s : Byte) : Byte := flagOf (s.getLsbD 0)

/-- `(s << 1) mod 256` (R171). -/
def shiftLeftResult (s : Byte) : Byte := s <<< 1

/-- The bit a left shift puts out: bit 7 (R171). -/
def shiftLeftFlag (s : Byte) : Byte := flagOf (s.getLsbD 7)

/-- The flag the logic operations leave: 0, always (R164, R165, R166). -/
def logicFlag : Byte := 0#8

/-- The hundreds, tens and ones digits of a byte (R184). -/
def hundreds (v : Byte) : Byte := BitVec.ofNat 8 (v.toNat / 100)

/-- The tens digit (R184). -/
def tens (v : Byte) : Byte := BitVec.ofNat 8 (v.toNat / 10 % 10)

/-- The ones digit (R184). -/
def ones (v : Byte) : Byte := BitVec.ofNat 8 (v.toNat % 10)

end Sys2Proof.Machine
end

