-- ==== Sys2Proof/Machine/Ops.lean ====
section
/-! DEFINITION. The named operations over the state: memory (20_memory.md R52 to R54), registers (10_state.md), the
call stack (R108, R109), raising a fault (60_exceptions.md R256) and completing an instruction (41_cycle.md R128).
Every write of the state goes through one of the setters below. -/

namespace Sys2Proof.Machine

/-! ### Memory as a canonical list (log 18) -/

/-- What an address that is not listed reads as: memory is zero-initialized at creation (R50). -/
def Memory.unlisted : Byte := 0#8

/-- The byte at an address. -/
def Memory.get : Memory → Nat → Byte
  | [], _ => Memory.unlisted
  | (k, v) :: rest, a => if k = a then v else Memory.get rest a

/-- The list with `(a, v)` in front, or without it when `v` is what an unlisted address reads as. -/
def Memory.cons (a : Nat) (v : Byte) (rest : Memory) : Memory :=
  if v = Memory.unlisted then rest else (a, v) :: rest

/-- Memory with the byte at `a` set to `v`, in canonical form again. -/
def Memory.put : Memory → Nat → Byte → Memory
  | [], a, v => Memory.cons a v []
  | (k, w) :: rest, a, v =>
    if a < k then Memory.cons a v ((k, w) :: rest)
    else if a = k then Memory.cons a v rest
    else (k, w) :: Memory.put rest a v

/-- Every listed address is at least `lo` and below the memory's size, addresses rise strictly, no listed byte is what
an unlisted address reads as. -/
def Memory.wfFrom : Nat → Memory → Bool
  | _, [] => true
  | lo, (k, v) :: rest => lo ≤ k && k < Config.memSize && v != Memory.unlisted && Memory.wfFrom (k + 1) rest

/-- The canonical form of memory. -/
def Memory.wf (m : Memory) : Bool := Memory.wfFrom 0 m

/-! ### Reading the state -/

/-- `x[i]` (R7, R20). -/
def State.reg (s : State) (i : Nibble) : Byte := s.regs[i.toNat]'i.toNat_lt

/-- `MemRead(addr, 1)`: never faults (R52). -/
def State.memRead (s : State) (a : Address) : Byte := s.mem.get a.toNat

/-- `MemRead(addr, 2)`: big-endian, the second byte at the next ring address (R54). -/
def State.memRead2 (s : State) (a : Address) : Word := wordOfBytes (s.memRead a) (s.memRead (addrAdd a 1))

/-- `fb[r][c]`: cell `64 * r + c` of the row-major form (R231); off outside the grid. -/
def Framebuffer.cell (fb : Framebuffer) (r c : Nat) : Bool :=
  if r < Config.fbHeight ∧ c < Config.fbWidth then fb.cells.getD (64 * r + c) false else false

/-- One framebuffer cell complemented; nothing outside the grid (R232). -/
def Framebuffer.toggle (fb : Framebuffer) (r c : Nat) : Framebuffer :=
  if r < Config.fbHeight ∧ c < Config.fbWidth then
    { cells := fb.cells.set (64 * r + c) (!fb.cell r c), size := List.length_set.trans fb.size }
  else fb

/-- The level of key `k` (R36). -/
def State.key (s : State) (k : Nibble) : Bool := s.keys[k.toNat]'k.toNat_lt

/-- One of the three scheduler timers (R32). -/
def State.timer (s : State) : TimerId → Timer
  | .instr => s.tInstr
  | .delay => s.tDelay
  | .sound => s.tSound

/-! ### Setters -/

/-- `x[i] <- v` (R7). -/
def State.setReg (s : State) (i : Nibble) (v : Byte) : State := { s with regs := s.regs.set i.toNat v i.toNat_lt }

/-- `I <- a` (R7). -/
def State.setIndex (s : State) (a : Address) : State := { s with index := a }

/-- `pc <- target` (R7). -/
def State.setPc (s : State) (a : Address) : State := { s with pc := a }

/-- The call stack replaced (R108, R109). -/
def State.setStack (s : State) (l : List Address) : State := { s with stack := l }

/-- `await` replaced (R30). -/
def State.setAwait (s : State) (k : Option Nibble) : State := { s with awaitKey := k }

/-- `crashed <- 1` (R31). -/
def State.crash (s : State) : State := { s with crashed := true }

/-- `MemWrite(addr, 1, v)`: never faults (R53). -/
def State.memWrite (s : State) (a : Address) (v : Byte) : State := { s with mem := s.mem.put a.toNat v }

/-- One scheduler timer replaced (R214). -/
def State.setTimer (s : State) (t : TimerId) (v : Timer) : State :=
  match t with
  | .instr => { s with tInstr := v }
  | .delay => { s with tDelay := v }
  | .sound => { s with tSound := v }

/-- `DT <- v` (R234). -/
def State.setDt (s : State) (v : Byte) : State := { s with dt := v }

/-- `ST <- v` (R234). -/
def State.setSt (s : State) (v : Byte) : State := { s with st := v }

/-- The framebuffer replaced (R35). -/
def State.setFb (s : State) (fb : Framebuffer) : State := { s with fb := fb }

/-- `keys[k] <- down` (R237). -/
def State.setKey (s : State) (k : Nibble) (down : Bool) : State :=
  { s with keys := s.keys.set k.toNat down k.toNat_lt }

/-- `released` replaced (R235, R237). -/
def State.setReleased (s : State) (k : Option Nibble) : State := { s with released := k }

/-- What the core operation in progress returns (log 2). -/
def State.setResult (s : State) (r : CycleResult) : State := { s with result := r }

/-- The count of random draws replaced (log 5). -/
def State.setDraws (s : State) (n : Nat) : State := { s with draws := n }

/-- The host's lined-up calls replaced (log 3). -/
def State.setQueue (s : State) (q : List HostCall) : State := { s with hostQueue := q }

/-! ### Taking a fault, and completing an instruction -/

/-- `raise F(info)`: nothing further is written, `crashed <- 1`, the cycle returns `Err(F(info))`, `pc` stays (R256). -/
def raise (f : Fault) (s : State) : Answer := .next (s.crash.setResult (.err f))

/-- An operation that returns `Ok(())` in state `s` (R130). -/
def answerOk (s : State) : Answer := .next (s.setResult .ok)

/-- A control transfer: `pc <- target`, and the cycle returns `Ok(())` (R128, R130). -/
def goTo (target : Address) (s : State) : Answer := answerOk (s.setPc target)

/-- `next`: the generic pc step of 2 bytes (R7, R128). -/
def stepNext (s : State) : Answer := goTo (addrAdd s.pc Config.pcStep) s

/-- `skip`: the step of a taken skip, 4 bytes (R7, R128). -/
def stepSkip (s : State) : Answer := goTo (addrAdd s.pc Config.skipStep) s

/-- `if c then skip else next` (R150). -/
def skipIf (c : Bool) (s : State) : Answer := if c then stepSkip s else stepNext s

/-! ### The call stack -/

/-- `push(a)`: fails without changing anything when 15 entries are held (R108). -/
def push (a : Address) (s : State) : Except Fault State :=
  if s.stack.length < Config.stackUsable then .ok (s.setStack (s.stack ++ [a])) else .error .stackOverflow

/-- `pop()`: the top entry and the stack without it; fails without changing anything when empty (R109). -/
def pop (s : State) : Except Fault (Address × State) :=
  match s.stack.getLast? with
  | none => .error .stackUnderflow
  | some a => .ok (a, s.setStack s.stack.dropLast)

/-! ### Register and flag writes, block transfers -/

/-- The destination, then the flag register, so that with `X = 15` the flag remains (R160). -/
def State.setRegFlag (s : State) (x : Nibble) (r f : Byte) : State := (s.setReg x r).setReg Config.flagReg f

/-- The first `n` registers stored at `I`, `I + 1`, ... in ascending order (R185). -/
def State.storeFirst (s : State) : Nat → State
  | 0 => s
  | n + 1 => (s.storeFirst n).memWrite (addrAdd s.index n) (s.reg (BitVec.ofNat 4 n))

/-- The first `n` registers loaded from `I`, `I + 1`, ... in ascending order (R186). -/
def State.loadFirst (s : State) : Nat → State
  | 0 => s
  | n + 1 => (s.loadFirst n).setReg (BitVec.ofNat 4 n) (s.memRead (addrAdd s.index n))

/-- `n` bytes read from `I` on, through ring addresses (R191). -/
def State.readRows (s : State) (n : Nat) : List Byte := (List.range n).map fun (i : Nat) => s.memRead (addrAdd s.index i)

/-! ### Fault codes -/

/-- The spec's numeric fault codes, for an implementation that has a code port (R266). -/
def Fault.code : Fault → Nat
  | .unknownOpcode _ => 1
  | .nibbleOutOfRange _ => 2
  | .addressOutOfRange _ => 3
  | .stackOverflow => 4
  | .stackUnderflow => 5
  | .alreadyCrashed => 6

/-- The code of a result: 0 is `Ok` (R266). -/
def CycleResult.code : CycleResult → Nat
  | .ok => 0
  | .err f => f.code

end Sys2Proof.Machine
end

