-- ==== Sys2Proof/Machine/Platform.lean ====
section
/-! DEFINITION. The reference platform's nine operations (49_platform.md R230 to R236) and the host's key events
(R237). The platform never touches memory, registers, the stack or `pc` (R230). The spec's own choices in it are
92_eei_decisions.md D20 (log 27). -/

namespace Sys2Proof.Machine

/-- `P.randomByte()`: one fresh free byte (R236; log 5). -/
def randomByte (s : State) : Byte × State := (Config.randomByte s.draws, s.setDraws (s.draws + 1))

/-- One set sprite bit at row `y`, column `c`: dropped outside the grid, else the cell is complemented and a lit cell
that goes out is a collision (R232). -/
def drawPixel (y c : Nat) (p : Framebuffer × Bool) : Framebuffer × Bool :=
  if y < Config.fbHeight ∧ c < Config.fbWidth then (p.1.toggle y c, p.2 || p.1.cell y c) else p

/-- The first `n` bits of a sprite row, from bit 7, the leftmost pixel, on (R232). -/
def drawBits (x0 y : Nat) (row : Byte) (p : Framebuffer × Bool) : Nat → Framebuffer × Bool
  | 0 => p
  | b + 1 =>
    let q := drawBits x0 y row p b
    if row.getLsbD (7 - b) then drawPixel y (x0 + b) q else q

/-- The rows of a sprite, the first at row `y` (R232). -/
def drawRows (x0 : Nat) : Nat → List Byte → Framebuffer × Bool → Framebuffer × Bool
  | _, [], p => p
  | y, row :: rest, p => drawRows x0 (y + 1) rest (drawBits x0 y row p 8)

/-- `P.drawSprite((px, py), rows)`: the position wraps modulo the screen, the body does not (R232); the framebuffer and
whether a lit cell went out. -/
def drawSprite (px py : Byte) (rows : List Byte) (fb : Framebuffer) : Framebuffer × Bool :=
  drawRows (px.toNat % Config.fbWidth) (py.toNat % Config.fbHeight) rows (fb, false)

/-- `P.clearScreen()`: every cell off (R233). -/
def clearFramebuffer : Framebuffer := Framebuffer.off

/-- `P.isKeyDown(k)`: a level read that changes nothing (R235). -/
def isKeyDown (s : State) (k : Nibble) : Bool := s.key k

/-- `P.takeLastReleasedKey()`: the pending release, which is consumed (R235). -/
def takeLastReleasedKey (s : State) : Option Nibble × State := (s.released, s.setReleased none)

/-- `P.getDelayTimer()` (R234). -/
def getDelayTimer (s : State) : Byte := s.dt

/-- `P.setDelayTimer(v)` (R234). -/
def setDelayTimer (s : State) (v : Byte) : State := s.setDt v

/-- `P.getSoundTimer()` (R234). -/
def getSoundTimer (s : State) : Byte := s.st

/-- `P.setSoundTimer(v)` (R234). -/
def setSoundTimer (s : State) (v : Byte) : State := s.setSt v

/-- The host's `keyDown(k)` (R237). -/
def hostKeyDown (k : Nibble) (s : State) : State := s.setKey k true

/-- The host's `keyUp(k)`: a release event if the key was down, else nothing; the newest release wins (R235, R237). -/
def hostKeyUp (k : Nibble) (s : State) : State :=
  if s.key k then (s.setKey k false).setReleased (some k) else s

end Sys2Proof.Machine
end

