-- ==== Sys2Proof/Machine/ControlFlow.lean ====
section
/-! DEFINITION. Control transfer (42_control_flow.md): Jump, Call, Return, JumpWithOffset. None takes the generic pc
step, none writes a register (R144). -/

namespace Sys2Proof.Machine

/-- `Jump(NNN)` (R140). -/
def execJump (nnn : Address) (s : State) : Answer := goTo nnn s

/-- `Call(NNN)`: pushes `pc + 2`, or raises `StackOverflow` (R141). -/
def execCall (nnn : Address) (s : State) : Answer :=
  match push (addrAdd s.pc Config.pcStep) s with
  | .error f => raise f s
  | .ok s' => goTo nnn s'

/-- `Return`: resumes at the popped address, or raises `StackUnderflow` (R142). -/
def execRet (s : State) : Answer :=
  match pop s with
  | .error f => raise f s
  | .ok (a, s') => goTo a s'

/-- `JumpWithOffset(NNN)`: always register 0, unsigned, wrapping (R143). -/
def execJumpWithOffset (nnn : Address) (s : State) : Answer := goTo (addrAdd nnn (s.reg 0#4).toNat) s

end Sys2Proof.Machine
end

