-- ==== Sys2Proof/Machine/Display.lean ====
section
/-! DEFINITION. Display instructions (46_display.md): the core gathers the operands, the platform draws, the collision
goes to the flag register. -/

namespace Sys2Proof.Machine

/-- `ClearScreen` (R190). -/
def execClearScreen (s : State) : Answer := stepNext (s.setFb clearFramebuffer)

/-- `Draw(X, Y, N)`: the coordinates are read before the flag is written; `I` stays (R191, R192). -/
def execDraw (x y n : Nibble) (s : State) : Answer :=
  let d := drawSprite (s.reg x) (s.reg y) (s.readRows n.toNat) s.fb
  stepNext ((s.setFb d.1).setReg Config.flagReg (flagOf d.2))

end Sys2Proof.Machine
end

