-- ==== Sys2Proof/Machine/IndexMemory.lean ====
section
/-! DEFINITION. Index register and memory instructions (45_index_memory.md). Every effective address is `I + i` on the
ring (R180). -/

namespace Sys2Proof.Machine

/-- `LoadIndex(NNN)` (R181). -/
def execLoadIndex (nnn : Address) (s : State) : Answer := stepNext (s.setIndex nnn)

/-- `AddIndex(X)`: wraps, writes no flag (R182). -/
def execAddIndex (x : Nibble) (s : State) : Answer := stepNext (s.setIndex (addrAdd s.index (s.reg x).toNat))

/-- `FONT_BASE`: what the host supplied, else a free constant (R183; log 6). -/
def fontBaseOf (p : Policy) : Address := p.fontBase.getD Config.freeFontBase

/-- The address of the glyph of digit `d` (R183). -/
def glyphAddress (p : Policy) (d : Nibble) : Address := addrAdd (fontBaseOf p) (Config.fontStride * d.toNat : Nat)

/-- `FontAddr(X)`: the glyph address of the digit in `x[X]`, or `NibbleOutOfRange` (R183; log 6, 7). -/
def execFontAddr (x : Nibble) (s : State) : Answer :=
  match nibOfReg s.policy.nibblePolicy (s.reg x) with
  | .error f => raise f s
  | .ok d => stepNext (s.setIndex (glyphAddress s.policy d))

/-- `Bcd(X)`: three digits at `I`, `I + 1`, `I + 2`; `I` stays (R184). -/
def execBcd (x : Nibble) (s : State) : Answer :=
  let v := s.reg x
  stepNext (((s.memWrite s.index (hundreds v)).memWrite (addrAdd s.index 1) (tens v)).memWrite
    (addrAdd s.index 2) (ones v))

/-- `StoreRegs(X)`: `x[0]`..`x[X]` to memory, then `I` advances by `X + 1` (R185; log 28). -/
def execStoreRegs (x : Nibble) (s : State) : Answer :=
  let n := x.toNat + 1
  stepNext ((s.storeFirst n).setIndex (addrAdd s.index n))

/-- `LoadRegs(X)`: `x[0]`..`x[X]` from memory, then `I` advances by `X + 1` (R186; log 28). -/
def execLoadRegs (x : Nibble) (s : State) : Answer :=
  let n := x.toNat + 1
  stepNext ((s.loadFirst n).setIndex (addrAdd s.index n))

end Sys2Proof.Machine
end

