-- ==== Sys2Proof/Machine/LoadAlu.lean ====
section
/-! DEFINITION. Register load, copy, arithmetic, logic, shifts, random (44_load_alu.md). Operands are read first, then
the destination is written, then the flag (R160). -/

namespace Sys2Proof.Machine

/-- `LoadImm(X, NN)` (R161). -/
def execLoadImm (x : Nibble) (nn : Byte) (s : State) : Answer := stepNext (s.setReg x nn)

/-- `AddImm(X, NN)`: wraps, writes no flag (R162). -/
def execAddImm (x : Nibble) (nn : Byte) (s : State) : Answer := stepNext (s.setReg x (sumResult (s.reg x) nn))

/-- `Copy(X, Y)` (R163). -/
def execCopy (x y : Nibble) (s : State) : Answer := stepNext (s.setReg x (s.reg y))

/-- `Or(X, Y)`: the flag is reset to 0 afterwards (R164). -/
def execOr (x y : Nibble) (s : State) : Answer := stepNext (s.setRegFlag x (s.reg x ||| s.reg y) logicFlag)

/-- `And(X, Y)`: the flag is reset to 0 afterwards (R165). -/
def execAnd (x y : Nibble) (s : State) : Answer := stepNext (s.setRegFlag x (s.reg x &&& s.reg y) logicFlag)

/-- `Xor(X, Y)`: the flag is reset to 0 afterwards (R166). -/
def execXor (x y : Nibble) (s : State) : Answer := stepNext (s.setRegFlag x (s.reg x ^^^ s.reg y) logicFlag)

/-- `AddReg(X, Y)`: the flag is the carry out (R167). -/
def execAddReg (x y : Nibble) (s : State) : Answer :=
  stepNext (s.setRegFlag x (sumResult (s.reg x) (s.reg y)) (carryFlag (s.reg x) (s.reg y)))

/-- `SubReg(X, Y)`: `x[X] - x[Y]`, the flag is the inverted borrow (R168). -/
def execSubReg (x y : Nibble) (s : State) : Answer :=
  stepNext (s.setRegFlag x (diffResult (s.reg x) (s.reg y)) (notBorrowFlag (s.reg x) (s.reg y)))

/-- `ShiftRight(X, Y)`: the source is `x[Y]` (R169). -/
def execShiftRight (x y : Nibble) (s : State) : Answer :=
  stepNext (s.setRegFlag x (shiftRightResult (s.reg y)) (shiftRightFlag (s.reg y)))

/-- `SubRev(X, Y)`: `x[Y] - x[X]`, the flag is the inverted borrow (R170). -/
def execSubRev (x y : Nibble) (s : State) : Answer :=
  stepNext (s.setRegFlag x (diffResult (s.reg y) (s.reg x)) (notBorrowFlag (s.reg y) (s.reg x)))

/-- `ShiftLeft(X, Y)`: the source is `x[Y]` (R171; log 26). -/
def execShiftLeft (x y : Nibble) (s : State) : Answer :=
  stepNext (s.setRegFlag x (shiftLeftResult (s.reg y)) (shiftLeftFlag (s.reg y)))

/-- `Random(X, NN)`: one free byte, masked (R172; log 5). -/
def execRandom (x : Nibble) (nn : Byte) (s : State) : Answer :=
  let d := randomByte s
  stepNext (d.2.setReg x (d.1 &&& nn))

end Sys2Proof.Machine
end

