-- ==== Sys2Proof/Machine/Skip.lean ====
section
/-! DEFINITION. Conditional skips (43_skip.md): each evaluates a condition and writes nothing but `pc` (R150). -/

namespace Sys2Proof.Machine

/-- `SkipEqImm(X, NN)` (R151). -/
def execSkipEqImm (x : Nibble) (nn : Byte) (s : State) : Answer := skipIf (s.reg x == nn) s

/-- `SkipNeImm(X, NN)` (R152). -/
def execSkipNeImm (x : Nibble) (nn : Byte) (s : State) : Answer := skipIf (s.reg x != nn) s

/-- `SkipEqReg(X, Y)` (R153). -/
def execSkipEqReg (x y : Nibble) (s : State) : Answer := skipIf (s.reg x == s.reg y) s

/-- `SkipNeReg(X, Y)` (R154). -/
def execSkipNeReg (x y : Nibble) (s : State) : Answer := skipIf (s.reg x != s.reg y) s

/-- `SkipKeyDown(X)`: the register names a key; raises before the platform is asked (R155). -/
def execSkipKeyDown (x : Nibble) (s : State) : Answer :=
  match nibOfReg s.policy.nibblePolicy (s.reg x) with
  | .error f => raise f s
  | .ok k => skipIf (isKeyDown s k) s

/-- `SkipKeyUp(X)` (R156). -/
def execSkipKeyUp (x : Nibble) (s : State) : Answer :=
  match nibOfReg s.policy.nibblePolicy (s.reg x) with
  | .error f => raise f s
  | .ok k => skipIf (!isKeyDown s k) s

end Sys2Proof.Machine
end

