-- ==== Sys2Proof/Machine/TimerKey.lean ====
section
/-! DEFINITION. Timer and key-wait instructions (47_timer_key.md). -/

namespace Sys2Proof.Machine

/-- `GetDelay(X)` (R200). -/
def execGetDelay (x : Nibble) (s : State) : Answer := stepNext (s.setReg x (getDelayTimer s))

/-- `WaitKey(X)`: arms the wait and steps; the platform is not asked in this cycle (R201; log 23). -/
def execWaitKey (x : Nibble) (s : State) : Answer := stepNext (s.setAwait (some x))

/-- `SetDelay(X)`: the tick accumulator is not restarted (R202). -/
def execSetDelay (x : Nibble) (s : State) : Answer := stepNext (setDelayTimer s (s.reg x))

/-- `SetSound(X)` (R203). -/
def execSetSound (x : Nibble) (s : State) : Answer := stepNext (setSoundTimer s (s.reg x))

end Sys2Proof.Machine
end

