-- ==== Sys2Proof/Machine/Cycle.lean ====
section
/-! DEFINITION. One cycle (41_cycle.md R120): the crashed check, the key-wait poll, fetch, decode, execute. -/

namespace Sys2Proof.Machine

/-- The instruction word at `pc` (R124): two bytes of memory as it is now (R62). -/
def fetch (s : State) : Word := s.memRead2 s.pc

/-- Decoding under this machine's `STRICT_5_9`, an undecodable word being a fault (R125). -/
def decodeFor (s : State) (w : Word) : Except Fault Instr :=
  match decode s.policy.strict59 w with
  | .ok i => .ok i
  | .error (.unknownOpcode w) => .error (.unknownOpcode w)

/-- A cycle in key-wait for register `k`: one poll; a released key ends the wait, nothing is fetched (R122, R123). -/
def pollKey (k : Nibble) (s : State) : Answer :=
  match takeLastReleasedKey s with
  | (none, s') => answerOk s'
  | (some key, s') => answerOk ((s'.setReg k (zext8 key)).setAwait none)

/-- `runOneCycle()` (R120): crashed beats key-wait beats fetch (R131). -/
def runOneCycle (s : State) : Answer :=
  if s.crashed then .next (s.setResult (.err .alreadyCrashed))
  else match s.awaitKey with
    | some k => pollKey k s
    | none => match decodeFor s (fetch s) with
      | .error f => raise f s
      | .ok i => exec i s

end Sys2Proof.Machine
end

