-- ==== Sys2Proof/Machine/Scheduler.lean ====
section
/-! DEFINITION. The timed scheduler (48_scheduler.md): three timers, `advance`, `advanceOneInstructionTick`. -/

namespace Sys2Proof.Machine

/-- `until_next(t)` (R212). -/
def Timer.untilNext (t : Timer) : Nat := t.interval - t.acc

/-- Whether adding `d` makes the timer tick (R213). -/
def Timer.fires (t : Timer) (d : Nat) : Bool := t.interval ≤ t.acc + d

/-- The timer after adding `d`: a tick subtracts the interval and retains the remainder (R213). -/
def Timer.advance (t : Timer) (d : Nat) : Timer :=
  { t with acc := if t.fires d then t.acc + d - t.interval else t.acc + d }

/-- A timer value after one tick: decremented by 1, saturating at 0 (R215). -/
def decrementSaturating (v : Byte) : Byte := BitVec.ofNat 8 (v.toNat - 1)

/-- The effect of a tick (R215); a decrement returns `Ok` (log 31, 32). -/
def tickEffect (t : TimerId) (s : State) : Answer :=
  match t with
  | .instr => runOneCycle s
  | .delay => answerOk (setDelayTimer s (decrementSaturating (getDelayTimer s)))
  | .sound => answerOk (setSoundTimer s (decrementSaturating (getSoundTimer s)))

/-- Phase 1 of a step of length `d`: all three accumulators advance (R214). -/
def advanceTimers (d : Nat) (s : State) : State :=
  ((s.setTimer .instr (s.tInstr.advance d)).setTimer .delay (s.tDelay.advance d)).setTimer .sound (s.tSound.advance d)

/-- Phase 2: the effects of the timers that ticked, one after the other; the first fault drops the later ones
(R214, R216, R217). `fired` says which timers ticked in phase 1. -/
def runEffects (fired : TimerId → Bool) : List TimerId → State → Answer
  | [], s => .next s
  | t :: rest, s =>
    if fired t then
      match tickEffect t s with
      | .next s' => if s'.result = .ok then runEffects fired rest s' else .next s'
      | .fault r => .fault r
      | .refused r => .refused r
    else runEffects fired rest s

/-- The length of the next step: the least of the remaining time and the three times until the next tick (R214). -/
def stepLength (remaining : Nat) (s : State) : Nat :=
  min remaining (min s.tInstr.untilNext (min s.tDelay.untilNext s.tSound.untilNext))

/-- One iteration of `advance`'s loop, of length `d`: phase 1, then phase 2 in `TICK_ORDER` (R214). -/
def advanceStep (d : Nat) (s : State) : Answer :=
  runEffects (fun t => (s.timer t).fires d) s.policy.tickOrder.toList (advanceTimers d s)

/-- The loop of `advance` (R214), on fuel: each step consumes at least one unit when every timer is in range (R220), so
fuel equal to the remaining time is enough (Laws/Scheduler.lean). A step of length 0 is a timer out of range, where the
spec's loop would not terminate (R211; log 17). -/
def advanceLoop : Nat → Nat → State → Answer
  | 0, remaining, s => if remaining = 0 then .next s else .refused .timerOutOfRange
  | fuel + 1, remaining, s =>
    if remaining = 0 then .next s
    else
      let d := stepLength remaining s
      if d = 0 then .refused .timerOutOfRange
      else match advanceStep d s with
        | .next s' => if s'.result = .ok then advanceLoop fuel (remaining - d) s' else .next s'
        | .fault r => .fault r
        | .refused r => .refused r

/-- `advance(D)` (R214): consumes `D` of virtual time unless a fault aborts it; returns the first fault (R217). -/
def advance (d : Nat) (s : State) : Answer := advanceLoop d d (s.setResult .ok)

/-- `advanceOneInstructionTick()` (R218). -/
def advanceOneInstructionTick (s : State) : Answer := advance s.tInstr.untilNext s

end Sys2Proof.Machine
end

