-- ==== Sys2Proof/Machine/HostCalls.lean ====
section
/-! DEFINITION. The calls of the host (49_platform.md R237, R244, R245; 70_reset_and_hazards.md R280 to R283), and
the two ways an instruction's bytes come to stand where the next cycle fetches. -/

namespace Sys2Proof.Machine

/-- Bytes written at `a`, `a + 1`, ... (R244). -/
def Memory.load (m : Memory) (a : Address) : List Byte → Memory
  | [] => m
  | b :: rest => Memory.load (m.put a.toNat b) (addrAdd a 1) rest

/-- Single bytes written by the loader outside the image (R244, R283). -/
def Memory.loadExtra (m : Memory) : List (Address × Byte) → Memory
  | [] => m
  | (a, b) :: rest => Memory.loadExtra (m.put a.toNat b) rest

/-- Memory after `reset`: zero, the extra regions, then the image (R280, R283). -/
def launchMemory (l : Launch) : Memory := Memory.load (Memory.loadExtra [] l.extra) l.entry l.image

/-- `reset(image, entry, config)` on a well-formed launch (R38, R280): a new core and a new scheduler; the platform is
new as well only if the host says so (R281; log 15). The host's own fields `draws` and `hostQueue` go on. -/
def resetCore (l : Launch) (s : State) : State :=
  let p := if l.freshPlatform then State.reset else s
  { State.reset with
    pc := l.entry
    mem := launchMemory l
    tInstr := { acc := 0, interval := l.config.instrInterval }
    tDelay := { acc := 0, interval := l.config.delayInterval }
    tSound := { acc := 0, interval := l.config.soundInterval }
    policy := l.config.policy
    dt := p.dt
    st := p.st
    fb := p.fb
    keys := p.keys
    released := p.released
    draws := s.draws
    hostQueue := s.hostQueue }

/-- `reset` as the host calls it: a launch outside the preconditions has no meaning (R211, R244; log 16). -/
def hostReset (l : Launch) (s : State) : Answer :=
  if !l.imageFits then .refused .imageTooLong
  else if !l.config.intervalsPositive then .refused .zeroInterval
  else .next (resetCore l s)

/-- One call of the host (R237, R245). -/
def hostCall (c : HostCall) (s : State) : Answer :=
  match c with
  | .reset l => hostReset l s
  | .runOneCycle => runOneCycle s
  | .advance d => advance d s
  | .advanceOneInstructionTick => advanceOneInstructionTick s
  | .keyDown k => .next (hostKeyDown k s)
  | .keyUp k => .next (hostKeyUp k s)

/-- One call of the machine: the oldest call the host has lined up, or `runOneCycle` when there is none (log 3). -/
def performNext (s : State) : Answer :=
  match s.hostQueue with
  | [] => runOneCycle s
  | c :: rest => hostCall c (s.setQueue rest)

/-- The two bytes of `w` stored at `a` and the next ring address (R54, R55). -/
def storeWord (a : Address) (w : Word) (s : State) : State :=
  let b := bytesOfWord w
  (s.memWrite a b.1).memWrite (addrAdd a 1) b.2

/-- The state with `w` where the next cycle fetches, able to fetch it: not crashed, not in key-wait, no host call lined
up (R120; log 35). -/
def placeWord (w : Word) (s : State) : State :=
  storeWord s.pc w { s with crashed := false, awaitKey := none, hostQueue := [] }

end Sys2Proof.Machine
end

