-- ==== Sys2Proof/Safety.lean ====
section
/-! DEFINITION. What the claims are stated in: the parts of the state and what leaves them unchanged, the machine's
invariant, a machine ready to fetch, a final state (70_reset_and_hazards.md R291), a safe state. -/

namespace Sys2Proof.Machine

/-! ### Frames -/

/-- The parts of the state, one per field of `State`. -/
inductive Part where
  | regs
  | index
  | pc
  | stack
  | awaitKey
  | crashed
  | mem
  | tInstr
  | tDelay
  | tSound
  | dt
  | st
  | fb
  | keys
  | released
  | policy
  | result
  | draws
  | hostQueue
  deriving DecidableEq, Repr

/-- A part reads the same in both states: every register, every byte of memory, every cell, every key. -/
def Part.same (s t : State) : Part → Prop
  | .regs => ∀ i, t.reg i = s.reg i
  | .index => t.index = s.index
  | .pc => t.pc = s.pc
  | .stack => t.stack = s.stack
  | .awaitKey => t.awaitKey = s.awaitKey
  | .crashed => t.crashed = s.crashed
  | .mem => ∀ a, t.memRead a = s.memRead a
  | .tInstr => t.tInstr = s.tInstr
  | .tDelay => t.tDelay = s.tDelay
  | .tSound => t.tSound = s.tSound
  | .dt => t.dt = s.dt
  | .st => t.st = s.st
  | .fb => ∀ r c, t.fb.cell r c = s.fb.cell r c
  | .keys => ∀ k, t.key k = s.key k
  | .released => t.released = s.released
  | .policy => t.policy = s.policy
  | .result => t.result = s.result
  | .draws => t.draws = s.draws
  | .hostQueue => t.hostQueue = s.hostQueue

/-- Every part of the state but those listed reads the same in `t` as in `s`. -/
def UnchangedExcept (changed : List Part) (s t : State) : Prop := ∀ p, p ∉ changed → p.same s t

/-- Every general register but those listed holds the same in `t` as in `s`. -/
def RegsUnchangedExcept (written : List Nibble) (s t : State) : Prop := ∀ i, i ∉ written → t.reg i = s.reg i

/-- Every byte of memory but those at the listed addresses reads the same in `t` as in `s`. -/
def MemUnchangedExcept (stored : List Address) (s t : State) : Prop := ∀ a, a ∉ stored → t.memRead a = s.memRead a

/-- `t` follows `s` by an instruction that completed with the generic step: `Ok`, `pc` 2 further on the ring (R128). -/
def CompletedNext (s t : State) : Prop := t.result = .ok ∧ t.pc.toNat = (s.pc.toNat + 2) % 4096

/-- `t` follows `s` by a skip that was taken or not: `Ok`, `pc` 4 or 2 further on the ring (R128, R150). -/
def CompletedSkip (taken : Prop) (s t : State) : Prop :=
  t.result = .ok ∧ (taken → t.pc.toNat = (s.pc.toNat + 4) % 4096) ∧ (¬ taken → t.pc.toNat = (s.pc.toNat + 2) % 4096)

/-- `t` follows `s` by raising `f`: crashed, the fault returned, everything else as it was (R256). -/
def RaisedOnly (f : Fault) (s t : State) : Prop :=
  t.crashed = true ∧ t.result = .err f ∧ UnchangedExcept [.crashed, .result] s t

/-- The addresses of an `n`-byte access at `I`: `I`, `I + 1`, ... on the ring (R59). -/
def accessAddresses (s : State) (n : Nat) : List Address := (List.range n).map fun (i : Nat) => addrAdd s.index i

/-! ### Invariants -/

/-- `0 <= t.acc < t.interval` (R220). -/
def Timer.inRange (t : Timer) : Prop := t.acc < t.interval

/-- All three scheduler timers are in range (R220). -/
def State.timersInRange (s : State) : Prop := s.tInstr.inRange ∧ s.tDelay.inRange ∧ s.tSound.inRange

/-- The machine's invariant: memory in canonical form (log 18), at most 15 stack entries (R28), every timer in range
(R220), and an error result only on a crashed machine (R130). -/
structure State.Inv (s : State) : Prop where
  memory : s.mem.wf = true
  stack  : s.stack.length ≤ Config.stackUsable
  timers : s.timersInRange
  errors : ∀ f, s.result = .err f → s.crashed = true

/-- The next step is a cycle that fetches: no host call lined up, not crashed, not in key-wait (R120). -/
def State.fetches (s : State) : Prop := s.hostQueue = [] ∧ s.crashed = false ∧ s.awaitKey = none

/-- A safe state: not crashed (R31). -/
def State.safe (s : State) : Prop := s.crashed = false

/-- A final state: `pc` addresses a `Jump` to its own address, no key-wait, not crashed (R291). -/
def State.final (s : State) : Prop :=
  decode s.policy.strict59 (fetch s) = .ok (.jump s.pc) ∧ s.awaitKey = none ∧ s.crashed = false

end Sys2Proof.Machine

namespace Sys2Proof

open Machine

/-- A call of the host that builds a new machine (R280, R281). -/
def HostCall.isReset : HostCall → Bool
  | .reset _ => true
  | .runOneCycle => false
  | .advance _ => false
  | .advanceOneInstructionTick => false
  | .keyDown _ => false
  | .keyUp _ => false

/-! ### Which state an instruction may write (10_state.md section 1) -/

/-- The parts of the state that an instruction may write when it completes; a fault writes `crashed` and the result
instead (R256). -/
def Instr.writes : Instr → List Part
  | .clearScreen => [.fb, .pc, .result]
  | .ret => [.stack, .pc, .result]
  | .jump _ => [.pc, .result]
  | .call _ => [.stack, .pc, .result]
  | .skipEqImm _ _ => [.pc, .result]
  | .skipNeImm _ _ => [.pc, .result]
  | .skipEqReg _ _ => [.pc, .result]
  | .loadImm _ _ => [.regs, .pc, .result]
  | .addImm _ _ => [.regs, .pc, .result]
  | .copy _ _ => [.regs, .pc, .result]
  | .or _ _ => [.regs, .pc, .result]
  | .and _ _ => [.regs, .pc, .result]
  | .xor _ _ => [.regs, .pc, .result]
  | .addReg _ _ => [.regs, .pc, .result]
  | .subReg _ _ => [.regs, .pc, .result]
  | .shiftRight _ _ => [.regs, .pc, .result]
  | .subRev _ _ => [.regs, .pc, .result]
  | .shiftLeft _ _ => [.regs, .pc, .result]
  | .skipNeReg _ _ => [.pc, .result]
  | .loadIndex _ => [.index, .pc, .result]
  | .jumpWithOffset _ => [.pc, .result]
  | .random _ _ => [.regs, .draws, .pc, .result]
  | .draw _ _ _ => [.regs, .fb, .pc, .result]
  | .skipKeyDown _ => [.pc, .result]
  | .skipKeyUp _ => [.pc, .result]
  | .getDelay _ => [.regs, .pc, .result]
  | .waitKey _ => [.awaitKey, .pc, .result]
  | .setDelay _ => [.dt, .pc, .result]
  | .setSound _ => [.st, .pc, .result]
  | .addIndex _ => [.index, .pc, .result]
  | .fontAddr _ => [.index, .pc, .result]
  | .bcd _ => [.mem, .pc, .result]
  | .storeRegs _ => [.mem, .index, .pc, .result]
  | .loadRegs _ => [.regs, .index, .pc, .result]

/-- The general registers that an instruction writes: its destination, and the flag register where R23 says so. -/
def Instr.writesReg : Instr → Nibble → Prop
  | .clearScreen, _ => False
  | .ret, _ => False
  | .jump _, _ => False
  | .call _, _ => False
  | .skipEqImm _ _, _ => False
  | .skipNeImm _ _, _ => False
  | .skipEqReg _ _, _ => False
  | .loadImm x _, j => j = x
  | .addImm x _, j => j = x
  | .copy x _, j => j = x
  | .or x _, j => j = x ∨ j = 15#4
  | .and x _, j => j = x ∨ j = 15#4
  | .xor x _, j => j = x ∨ j = 15#4
  | .addReg x _, j => j = x ∨ j = 15#4
  | .subReg x _, j => j = x ∨ j = 15#4
  | .shiftRight x _, j => j = x ∨ j = 15#4
  | .subRev x _, j => j = x ∨ j = 15#4
  | .shiftLeft x _, j => j = x ∨ j = 15#4
  | .skipNeReg _ _, _ => False
  | .loadIndex _, _ => False
  | .jumpWithOffset _, _ => False
  | .random x _, j => j = x
  | .draw _ _ _, j => j = 15#4
  | .skipKeyDown _, _ => False
  | .skipKeyUp _, _ => False
  | .getDelay x, j => j = x
  | .waitKey _, _ => False
  | .setDelay _, _ => False
  | .setSound _, _ => False
  | .addIndex _, _ => False
  | .fontAddr _, _ => False
  | .bcd _, _ => False
  | .storeRegs _, _ => False
  | .loadRegs x, j => j.toNat ≤ x.toNat

/-- The addresses that an instruction stores to: the ones at `I` on the ring, computed as its meaning does (R59, R184,
R185). -/
def Instr.storesTo : Instr → State → List Address
  | .clearScreen, _ => []
  | .ret, _ => []
  | .jump _, _ => []
  | .call _, _ => []
  | .skipEqImm _ _, _ => []
  | .skipNeImm _ _, _ => []
  | .skipEqReg _ _, _ => []
  | .loadImm _ _, _ => []
  | .addImm _ _, _ => []
  | .copy _ _, _ => []
  | .or _ _, _ => []
  | .and _ _, _ => []
  | .xor _ _, _ => []
  | .addReg _ _, _ => []
  | .subReg _ _, _ => []
  | .shiftRight _ _, _ => []
  | .subRev _ _, _ => []
  | .shiftLeft _ _, _ => []
  | .skipNeReg _ _, _ => []
  | .loadIndex _, _ => []
  | .jumpWithOffset _, _ => []
  | .random _ _, _ => []
  | .draw _ _ _, _ => []
  | .skipKeyDown _, _ => []
  | .skipKeyUp _, _ => []
  | .getDelay _, _ => []
  | .waitKey _, _ => []
  | .setDelay _, _ => []
  | .setSound _, _ => []
  | .addIndex _, _ => []
  | .fontAddr _, _ => []
  | .bcd _, s => accessAddresses s 3
  | .storeRegs x, s => accessAddresses s (x.toNat + 1)
  | .loadRegs _, _ => []

/-- The instructions that set the flag register as a side effect (R23). -/
def Instr.setsFlag : Instr → Bool
  | .or _ _ => true
  | .and _ _ => true
  | .xor _ _ => true
  | .addReg _ _ => true
  | .subReg _ _ => true
  | .shiftRight _ _ => true
  | .subRev _ _ => true
  | .shiftLeft _ _ => true
  | .draw _ _ _ => true
  | .clearScreen => false
  | .ret => false
  | .jump _ => false
  | .call _ => false
  | .skipEqImm _ _ => false
  | .skipNeImm _ _ => false
  | .skipEqReg _ _ => false
  | .loadImm _ _ => false
  | .addImm _ _ => false
  | .copy _ _ => false
  | .skipNeReg _ _ => false
  | .loadIndex _ => false
  | .jumpWithOffset _ => false
  | .random _ _ => false
  | .skipKeyDown _ => false
  | .skipKeyUp _ => false
  | .getDelay _ => false
  | .waitKey _ => false
  | .setDelay _ => false
  | .setSound _ => false
  | .addIndex _ => false
  | .fontAddr _ => false
  | .bcd _ => false
  | .storeRegs _ => false
  | .loadRegs _ => false

/-- How an instruction advances `pc` (R26). -/
inductive PcRule where
  /-- The generic step of 2. -/
  | next
  /-- 2, or 4 when the skip is taken. -/
  | skip
  /-- Set explicitly. -/
  | transfer
  deriving DecidableEq, Repr

/-- The pc rule of an instruction (R26). -/
def Instr.pcRule : Instr → PcRule
  | .ret => .transfer
  | .jump _ => .transfer
  | .call _ => .transfer
  | .jumpWithOffset _ => .transfer
  | .skipEqImm _ _ => .skip
  | .skipNeImm _ _ => .skip
  | .skipEqReg _ _ => .skip
  | .skipNeReg _ _ => .skip
  | .skipKeyDown _ => .skip
  | .skipKeyUp _ => .skip
  | .clearScreen => .next
  | .loadImm _ _ => .next
  | .addImm _ _ => .next
  | .copy _ _ => .next
  | .or _ _ => .next
  | .and _ _ => .next
  | .xor _ _ => .next
  | .addReg _ _ => .next
  | .subReg _ _ => .next
  | .shiftRight _ _ => .next
  | .subRev _ _ => .next
  | .shiftLeft _ _ => .next
  | .loadIndex _ => .next
  | .random _ _ => .next
  | .draw _ _ _ => .next
  | .getDelay _ => .next
  | .waitKey _ => .next
  | .setDelay _ => .next
  | .setSound _ => .next
  | .addIndex _ => .next
  | .fontAddr _ => .next
  | .bcd _ => .next
  | .storeRegs _ => .next
  | .loadRegs _ => .next

/-- The condition under which an instruction raises `f` in state `s` (R127, R266). -/
def Instr.raises (i : Instr) (s : State) (f : Fault) : Prop :=
  match i with
  | .call _ => f = .stackOverflow ∧ s.stack.length = Config.stackUsable
  | .ret => f = .stackUnderflow ∧ s.stack = []
  | .skipKeyDown x => f = .nibbleOutOfRange (s.reg x).toNat ∧ 15 < (s.reg x).toNat ∧ s.policy.nibblePolicy = .fault
  | .skipKeyUp x => f = .nibbleOutOfRange (s.reg x).toNat ∧ 15 < (s.reg x).toNat ∧ s.policy.nibblePolicy = .fault
  | .fontAddr x => f = .nibbleOutOfRange (s.reg x).toNat ∧ 15 < (s.reg x).toNat ∧ s.policy.nibblePolicy = .fault
  | .clearScreen => False
  | .jump _ => False
  | .skipEqImm _ _ => False
  | .skipNeImm _ _ => False
  | .skipEqReg _ _ => False
  | .loadImm _ _ => False
  | .addImm _ _ => False
  | .copy _ _ => False
  | .or _ _ => False
  | .and _ _ => False
  | .xor _ _ => False
  | .addReg _ _ => False
  | .subReg _ _ => False
  | .shiftRight _ _ => False
  | .subRev _ _ => False
  | .shiftLeft _ _ => False
  | .skipNeReg _ _ => False
  | .loadIndex _ => False
  | .jumpWithOffset _ => False
  | .random _ _ => False
  | .draw _ _ _ => False
  | .getDelay _ => False
  | .waitKey _ => False
  | .setDelay _ => False
  | .setSound _ => False
  | .addIndex _ => False
  | .bcd _ => False
  | .storeRegs _ => False
  | .loadRegs _ => False

end Sys2Proof

namespace Sys2Proof.Machine

/-! ### Sequences of pushes and pops -/

/-- The pushes of a list of addresses, one after the other (R110). -/
def pushAll : List Address → State → Except Fault State
  | [], s => .ok s
  | a :: rest, s =>
    match push a s with
    | .ok t => pushAll rest t
    | .error f => .error f

/-- `n` pops one after the other, and the addresses in the order in which they came (R110). -/
def popTimes : Nat → State → Except Fault (List Address × State)
  | 0, s => .ok ([], s)
  | n + 1, s =>
    match pop s with
    | .error f => .error f
    | .ok (a, t) =>
      match popTimes n t with
      | .ok (l, u) => .ok (a :: l, u)
      | .error f => .error f

/-! ### Drawing, said cell by cell -/

/-- The sprite drawn at column `x0`, row `y0` has a set bit that falls on row `r`, column `c` (R232). -/
def spriteBit (x0 y0 : Nat) (rows : List Byte) (r c : Nat) : Bool :=
  y0 ≤ r && x0 ≤ c && c < x0 + 8 && (rows.getD (r - y0) 0#8).getLsbD (7 - (c - x0))

/-- What drawing leaves in cell `(r, c)`: the old value, complemented where a set sprite bit falls on it (R232). -/
def drawnCell (px py : Byte) (rows : List Byte) (fb : Framebuffer) (r c : Nat) : Bool :=
  fb.cell r c ^^ spriteBit (px.toNat % 64) (py.toNat % 32) rows r c

end Sys2Proof.Machine
end

