-- ==== Sys2Proof/Certificates/Slice0/Obligations.lean ====
section
/-! DEFINITION. The statements about the machine, in the order of OBLIGATIONS.json. `UnchangedExcept` says which parts
of the state may differ, every other one reading the same: every register, every byte of memory, every cell. -/

open Sys2Proof Sys2Proof.Machine

/-! ### Encoding -/

/-- Decoding an encoded instruction gives it back, with every operand at every value (30_encoding.md section 3). -/
def Obligations.DecodeAfterEncode : Prop :=
  ∀ (strict : Bool) (i : Instr), i.wellFormed = true → decode strict (encode i) = .ok i

/-- Encoding a decoded word gives it back: in the strict decoder always, in the default one up to the low nibble of
families 5 and 9, which it ignores (30_encoding.md sections 3 and 4). -/
def Obligations.EncodeAfterDecode : Prop :=
  ∀ (w : Word) (i : Instr),
    (decode true w = .ok i → encode i = w) ∧
    (decode false w = .ok i →
      encode i = if fieldOP w = 0x5#4 ∨ fieldOP w = 0x9#4 then w &&& 0xFFF0#16 else w)

/-- A word selects exactly one row of the opcode table when it decodes, and then the decoded instruction is of that row;
it selects none when it does not (30_encoding.md section 3). -/
def Obligations.ExactlyOneRowOrUnknown : Prop :=
  ∀ (strict : Bool) (w : Word),
    (∃ i, decode strict w = .ok i ∧ i.selectedBy strict w = true ∧
      (rowSamples.filter (·.selectedBy strict w)).length = 1) ∨
    (decode strict w = .error (.unknownOpcode w) ∧ (rowSamples.filter (·.selectedBy strict w)).length = 0)

/-- Which words are illegal, family by family, carrying the raw word (30_encoding.md section 4). The legal selectors of
families 8, E and F are from general knowledge and the spec's decision D4 (log 19); the last clause is its decision D3,
the parameter STRICT_5_9 (log 9). -/
def Obligations.IllegalWordsByFamily : Prop :=
  ∀ (strict : Bool) (w : Word), decode strict w = .error (.unknownOpcode w) ↔
    (fieldOP w = 0x0#4 ∧ w ≠ 0x00E0#16 ∧ w ≠ 0x00EE#16) ∨
    (fieldOP w = 0x8#4 ∧ fieldN w ∈ [0x8#4, 0x9#4, 0xA#4, 0xB#4, 0xC#4, 0xD#4, 0xF#4]) ∨
    (fieldOP w = 0xE#4 ∧ fieldNN w ∉ [0x9E#8, 0xA1#8]) ∨
    (fieldOP w = 0xF#4 ∧
      fieldNN w ∉ [0x07#8, 0x0A#8, 0x15#8, 0x18#8, 0x1E#8, 0x29#8, 0x33#8, 0x55#8, 0x65#8]) ∨
    (strict = true ∧ (fieldOP w = 0x5#4 ∨ fieldOP w = 0x9#4) ∧ fieldN w ≠ 0x0#4)

/-- Eight legal words of seven families (0, 2, 3, 8, A, D and two of F), written out from the table, and two illegal ones
(95_test_vectors.md section 2.1). The bit patterns are from general knowledge and the spec's decision D4 (log 19); the
last clause is its decision D3 (log 9). -/
def Obligations.WrittenWordsDecode : Prop :=
  decode false 0x00EE#16 = .ok .ret ∧ decode false 0x2210#16 = .ok (.call 0x210#12) ∧
  decode false 0x3A7F#16 = .ok (.skipEqImm 10#4 0x7F#8) ∧ decode false 0x8AB5#16 = .ok (.subReg 10#4 11#4) ∧
  decode false 0xA300#16 = .ok (.loadIndex 0x300#12) ∧ decode false 0xDAB5#16 = .ok (.draw 10#4 11#4 5#4) ∧
  decode false 0xF50A#16 = .ok (.waitKey 5#4) ∧ decode false 0xF355#16 = .ok (.storeRegs 3#4) ∧
  decode false 0x0123#16 = .error (.unknownOpcode 0x0123#16) ∧
  decode true 0x5127#16 = .error (.unknownOpcode 0x5127#16)

/-! ### Bounded values, the call stack, memory -/

/-- Ring addition is the integer sum modulo 4096, for every signed offset (R104). -/
def Obligations.RingAdditionWraps : Prop :=
  ∀ (a : Address) (k : Int), ((addrAdd a k).toNat : Int) = ((a.toNat : Int) + k) % 4096

/-- The validated constructors answer the value in range and the value-domain fault above it (R100, R102). -/
def Obligations.ValidatedConstructors : Prop :=
  ∀ raw : Nat,
    (raw ≤ 15 → ∃ n, nibbleChecked raw = .ok n ∧ n.toNat = raw) ∧
    (15 < raw → nibbleChecked raw = .error (.nibbleOutOfRange raw)) ∧
    (raw ≤ 4095 → ∃ a, addressChecked raw = .ok a ∧ a.toNat = raw) ∧
    (4095 < raw → addressChecked raw = .error (.addressOutOfRange raw))

/-- A register value as a nibble: the value itself up to 15, above it the fault or the value modulo 16, as the policy
says; the wrapping constructors reduce (40_values_and_stack.md sections 1, 2, 4; the policy is the spec's OPEN parameter,
log 8). -/
def Obligations.RegisterValueAsNibble : Prop :=
  (∀ (p : NibblePolicy) (v : Byte),
    (v.toNat ≤ 15 → ∃ n, nibOfReg p v = .ok n ∧ n.toNat = v.toNat) ∧
    (15 < v.toNat → p = .fault → nibOfReg p v = .error (.nibbleOutOfRange v.toNat)) ∧
    (15 < v.toNat → p = .wrap → ∃ n, nibOfReg p v = .ok n ∧ n.toNat = v.toNat % 16)) ∧
  (∀ raw : Nat, (nibbleWrap raw).toNat = raw % 16 ∧ (addressWrap raw).toNat = raw % 4096)

/-- The stack takes 15 entries and gives them back in reverse order; a full push and an empty pop fail
(40_values_and_stack.md section 5). A failing operation answers the fault alone, so there is no changed stack. That the
capacity is 15 is the choice of 90_conflicts.md C1 (log 29). -/
def Obligations.StackIsLifo : Prop :=
  ∀ (s : State) (a : Address),
    (s.stack.length < 15 → ∃ t, push a s = .ok t ∧ t.stack = s.stack ++ [a] ∧ UnchangedExcept [.stack] s t ∧
      pop t = .ok (a, s)) ∧
    (s.stack.length = 15 → push a s = .error .stackOverflow) ∧
    (s.stack = [] → pop s = .error .stackUnderflow) ∧
    (∀ l : List Address, s.stack = [] → l.length ≤ 15 →
      ∃ t, pushAll l s = .ok t ∧ t.stack = l ∧ popTimes l.length t = .ok (l.reverse, s))

/-- A write sets its byte and changes nothing else (R53). -/
def Obligations.MemoryWriteSetsOneByte : Prop :=
  ∀ (s : State) (a : Address) (v : Byte),
    (s.mem.wf = true → (s.memWrite a v).memRead a = v) ∧ MemUnchangedExcept [a] s (s.memWrite a v) ∧
    UnchangedExcept [.mem] s (s.memWrite a v)

/-- The model's canonical form (log 18): memories that read the same are the same list, and a write keeps the form. -/
def Obligations.CanonicalMemoriesAreEqualData : Prop :=
  (∀ m m' : Memory, m.wf = true → m'.wf = true → (∀ a : Nat, a < 4096 → m.get a = m'.get a) → m = m') ∧
  (∀ (m : Memory) (a : Address) (v : Byte), m.wf = true → (m.put a.toNat v).wf = true)

/-- Fetch is big-endian, its second byte on the ring, and it sees the bytes stored just before (20_memory.md sections 2,
3, 8; the ring address is the spec's decision D10, log 21). -/
def Obligations.FetchIsBigEndianAndCoherent : Prop :=
  ∀ s : State,
    (∀ b : Address, b.toNat = (s.pc.toNat + 1) % 4096 →
      (fetch s).toNat = (s.memRead s.pc).toNat * 256 + (s.memRead b).toNat) ∧
    (∀ hi lo : Byte, s.mem.wf = true →
      (fetch ((s.memWrite s.pc hi).memWrite (addrAdd s.pc 1) lo)).toNat = hi.toNat * 256 + lo.toNat)

/-! ### Reset -/

/-- The state after reset (10_state.md section 10). Registers, memory and `pc` are the source's; `I`, the stack, `await`,
`crashed`, the accumulators and the platform are the spec's decision D19 (log 13, 14); the entry address, the intervals'
unit and the parameters are defaults (log 8 to 12). -/
def Obligations.ResetState : Prop :=
  (∀ i, State.reset.reg i = 0#8) ∧ (∀ a, State.reset.memRead a = 0#8) ∧ State.reset.pc = 0x200#12 ∧
  State.reset.index = 0#12 ∧ State.reset.stack = [] ∧ State.reset.awaitKey = none ∧ State.reset.crashed = false ∧
  State.reset.tInstr = { acc := 0, interval := 2000000 } ∧ State.reset.tDelay = { acc := 0, interval := 16000000 } ∧
  State.reset.tSound = { acc := 0, interval := 16000000 } ∧ State.reset.dt = 0#8 ∧ State.reset.st = 0#8 ∧
  (∀ r c, State.reset.fb.cell r c = false) ∧ (∀ k, State.reset.key k = false) ∧ State.reset.released = none

/-- `reset(image, entry, config)` builds the machine with the image in memory, the loader's other bytes outside it, zero
where the loader wrote nothing; a launch whose image does not fit, or whose interval is zero, is refused
(70_reset_and_hazards.md sections 1 and 2, 49_platform.md section 7). `I`, the stack, `await`, `crashed`, the accumulators
and a new platform's values are the spec's decision D19 (log 13, 14); the refusals are log 16, the platform kept or new is
log 15; that the later of two writes to an address stays is log 39. -/
def Obligations.ResetLoadsTheImage : Prop :=
  ∀ (l : Launch) (s : State),
    (l.image.length ≤ 4096 - l.entry.toNat → 0 < l.config.instrInterval → 0 < l.config.delayInterval →
      0 < l.config.soundInterval →
      ∃ t, hostCall (.reset l) s = .next t ∧ t.pc = l.entry ∧ (∀ i, t.reg i = 0#8) ∧ t.index = 0#12 ∧ t.stack = [] ∧
        t.awaitKey = none ∧ t.crashed = false ∧ t.result = .ok ∧ t.policy = l.config.policy ∧
        t.tInstr = { acc := 0, interval := l.config.instrInterval } ∧
        t.tDelay = { acc := 0, interval := l.config.delayInterval } ∧
        t.tSound = { acc := 0, interval := l.config.soundInterval } ∧
        (∀ i, i < l.image.length → t.memRead (addrAdd l.entry i) = l.image.getD i 0#8) ∧
        (∀ a, (∀ i, i < l.image.length → a ≠ addrAdd l.entry i) →
          (∀ before v after, l.extra = before ++ (a, v) :: after → (∀ v', (a, v') ∉ after) → t.memRead a = v) ∧
          ((∀ v, (a, v) ∉ l.extra) → t.memRead a = 0#8)) ∧
        (l.freshPlatform = true → t.dt = 0#8 ∧ t.st = 0#8 ∧ (∀ r c, t.fb.cell r c = false) ∧
          (∀ k, t.key k = false) ∧ t.released = none) ∧
        (l.freshPlatform = false → t.dt = s.dt ∧ t.st = s.st ∧ t.fb = s.fb ∧ t.keys = s.keys ∧
          t.released = s.released)) ∧
    (4096 - l.entry.toNat < l.image.length → hostCall (.reset l) s = .refused .imageTooLong) ∧
    (l.image.length ≤ 4096 - l.entry.toNat →
      l.config.instrInterval = 0 ∨ l.config.delayInterval = 0 ∨ l.config.soundInterval = 0 →
      hostCall (.reset l) s = .refused .zeroInterval)

/-! ### The cycle -/

/-- One step is the oldest host call lined up, or a cycle; a cycle whose bytes at `pc` decode runs that instruction at
that state (41_cycle.md sections 1 and 3; that a step is one host call is log 3). -/
def Obligations.StepRunsDecodedInstruction : Prop :=
  (∀ (s : State) (i : Instr), s.hostQueue = [] → s.crashed = false → s.awaitKey = none →
    decode s.policy.strict59 (wordOfBytes (s.memRead s.pc) (s.memRead (addrAdd s.pc 1))) = .ok i →
    i.wellFormed = true → step s = exec i s) ∧
  (∀ (s : State) (c : HostCall) (rest : List HostCall), s.hostQueue = c :: rest →
    step s = hostCall c (s.setQueue rest))

/-- The host's placed word is the one the next step runs, and placing it changes nothing else a program can see
(log 4, 35). -/
def Obligations.PlacedWordIsRunNext : Prop :=
  ∀ (s : State) (w : Nat) (i : Instr), s.mem.wf = true → w < 65536 →
    decode s.policy.strict59 (BitVec.ofNat 16 w) = .ok i →
    step (s.withFetchWord 16 w) = exec i (s.withFetchWord 16 w) ∧
    MemUnchangedExcept [s.pc, addrAdd s.pc 1] s (s.withFetchWord 16 w) ∧
    UnchangedExcept [.mem, .crashed, .awaitKey, .hostQueue] s (s.withFetchWord 16 w)

/-- A fetched word that matches no row crashes the machine and changes nothing else (R125, R251). -/
def Obligations.UnknownOpcodeCrashes : Prop :=
  ∀ s : State, s.fetches → (∀ i, decode s.policy.strict59 (fetch s) ≠ .ok i) →
    ∃ t, step s = .next t ∧ RaisedOnly (.unknownOpcode (fetch s)) s t

/-- A cycle on a crashed machine answers `AlreadyCrashed`, even in key-wait with a release pending, and changes nothing
else (41_cycle.md section 1; the fault value is the spec's decision D14, log 24). -/
def Obligations.CrashedCycleAnswersOnly : Prop :=
  ∀ s : State, s.hostQueue = [] → s.crashed = true →
    ∃ t, step s = .next t ∧ t.result = .err .alreadyCrashed ∧ UnchangedExcept [.result] s t

/-- A cycle in key-wait with no release pending returns `Ok` and changes nothing (R122). -/
def Obligations.KeyWaitPollDoesNothing : Prop :=
  ∀ (s : State) (k : Nibble), s.hostQueue = [] → s.crashed = false → s.awaitKey = some k → s.released = none →
    ∃ t, step s = .next t ∧ t.result = .ok ∧ UnchangedExcept [.result] s t

/-- A cycle in key-wait with a release pending stores the key, ends the wait and fetches nothing (41_cycle.md section 2;
the spec's decision D13, log 23). -/
def Obligations.KeyWaitCompletes : Prop :=
  ∀ (s : State) (k key : Nibble), s.hostQueue = [] → s.crashed = false → s.awaitKey = some k →
    s.released = some key →
    ∃ t, step s = .next t ∧ t.result = .ok ∧ (t.reg k).toNat = key.toNat ∧ t.awaitKey = none ∧ t.released = none ∧
      RegsUnchangedExcept [k] s t ∧ UnchangedExcept [.regs, .awaitKey, .released, .result] s t

/-- An instruction that raises writes nothing but `crashed` and the fault it returns (R256). -/
def Obligations.RaiseWritesNothingElse : Prop :=
  ∀ (i : Instr) (s t : State) (f : Fault), exec i s = .next t → t.result = .err f →
    t = { s with crashed := true, result := .err f }

/-- Which instructions raise which fault, and exactly when (41_cycle.md section 3, 60_exceptions.md section 1; the stack
having at most 15 entries is the invariant). That `Call` faults at 15 entries is the choice of 90_conflicts.md C1
(log 29); the nibble policy is the spec's decision D7 (log 8). -/
def Obligations.InstructionFaultsExactly : Prop :=
  ∀ (i : Instr) (s : State) (f : Fault), s.stack.length ≤ 15 →
    ((∃ t, exec i s = .next t ∧ t.result = .err f) ↔ i.raises s f)

/-- Every instruction and every cycle answers a next state: nothing in the machine is stuck (93_implementation_defined.md
part 1; a raise is a next state, log 1). -/
def Obligations.EveryCycleAnswers : Prop :=
  (∀ (i : Instr) (s : State), ∃ t, exec i s = .next t) ∧ (∀ s : State, ∃ t, runOneCycle s = .next t)

/-- A completed instruction advances `pc` by 2, a skip by 2 or 4, modulo 4096; only the control transfers do otherwise
(10_state.md section 5, 41_cycle.md section 3). -/
def Obligations.CompletedInstructionStepsPc : Prop :=
  ∀ (i : Instr) (s t : State), exec i s = .next t → t.result = .ok →
    (i.pcRule = .next → t.pc.toNat = (s.pc.toNat + 2) % 4096) ∧
    (i.pcRule = .skip → t.pc.toNat = (s.pc.toNat + 2) % 4096 ∨ t.pc.toNat = (s.pc.toNat + 4) % 4096)

/-- Whatever an instruction does, it writes only the parts of the state that 10_state.md section 1 gives it, only its
destination registers and only the bytes it stores to, or, raising, `crashed` and the result. The ring addresses of the
stores are the spec's decision D10 (log 21), that `StoreRegs` includes `X` is 90_conflicts.md C2 (log 28). -/
def Obligations.InstructionsWriteOnlyTheirState : Prop :=
  ∀ (i : Instr) (s t : State), exec i s = .next t →
    (t.result = .ok → UnchangedExcept i.writes s t) ∧
    (∀ j, ¬ i.writesReg j → t.reg j = s.reg j) ∧
    MemUnchangedExcept (i.storesTo s) s t ∧
    (t.result ≠ .ok → UnchangedExcept [.crashed, .result] s t)

/-- The flag register is written as a flag by the instructions of 10_state.md section 3 only, and then holds exactly 0 or
1 (the table is the spec's decision D12, log 30). -/
def Obligations.FlagRegisterRule : Prop :=
  ∀ (i : Instr) (s t : State), exec i s = .next t →
    (i.setsFlag = true → t.reg 15#4 = 0#8 ∨ t.reg 15#4 = 1#8) ∧
    (i.setsFlag = false → ¬ i.writesReg 15#4 → t.reg 15#4 = s.reg 15#4)

/-! ### Control transfer -/

/-- `Jump` sets `pc` to its target and changes nothing else (R140). -/
def Obligations.JumpGoesToTarget : Prop :=
  ∀ (nnn : Address) (s : State),
    ∃ t, exec (.jump nnn) s = .next t ∧ t.pc = nnn ∧ t.result = .ok ∧ UnchangedExcept [.pc, .result] s t

/-- `Call` pushes the address after it and jumps; with 15 entries held it raises `StackOverflow` (42_control_flow.md,
60_exceptions.md section 1). That the capacity is 15 is the choice of 90_conflicts.md C1 (log 29). -/
def Obligations.CallPushesAndJumps : Prop :=
  ∀ (nnn : Address) (s : State),
    (s.stack.length < 15 → ∃ t ra, exec (.call nnn) s = .next t ∧ t.stack = s.stack ++ [ra] ∧
      ra.toNat = (s.pc.toNat + 2) % 4096 ∧ t.pc = nnn ∧ t.result = .ok ∧
      UnchangedExcept [.stack, .pc, .result] s t) ∧
    (s.stack.length = 15 → ∃ t, exec (.call nnn) s = .next t ∧ RaisedOnly .stackOverflow s t)

/-- `Return` resumes at the top entry and removes it; on an empty stack it raises `StackUnderflow` (R142, R254). -/
def Obligations.ReturnPopsAndResumes : Prop :=
  ∀ s : State,
    (∀ l a, s.stack = l ++ [a] → ∃ t, exec .ret s = .next t ∧ t.stack = l ∧ t.pc = a ∧ t.result = .ok ∧
      UnchangedExcept [.stack, .pc, .result] s t) ∧
    (s.stack = [] → ∃ t, exec .ret s = .next t ∧ RaisedOnly .stackUnderflow s t)

/-- `JumpWithOffset` adds register 0, unsigned, to its address on the ring (R143). -/
def Obligations.JumpWithOffsetAddsRegisterZero : Prop :=
  ∀ (nnn : Address) (s : State),
    ∃ t, exec (.jumpWithOffset nnn) s = .next t ∧ t.pc.toNat = (nnn.toNat + (s.reg 0#4).toNat) % 4096 ∧
      t.result = .ok ∧ UnchangedExcept [.pc, .result] s t

/-! ### Skips -/

/-- The four comparing skips: condition, step, and nothing else written (43_skip.md; the conditions are the spec's
decision D12, log 30). -/
def Obligations.ComparingSkips : Prop :=
  ∀ (s : State) (x y : Nibble) (nn : Byte),
    (∃ t, exec (.skipEqImm x nn) s = .next t ∧ CompletedSkip (s.reg x = nn) s t ∧
      UnchangedExcept [.pc, .result] s t) ∧
    (∃ t, exec (.skipNeImm x nn) s = .next t ∧ CompletedSkip (s.reg x ≠ nn) s t ∧
      UnchangedExcept [.pc, .result] s t) ∧
    (∃ t, exec (.skipEqReg x y) s = .next t ∧ CompletedSkip (s.reg x = s.reg y) s t ∧
      UnchangedExcept [.pc, .result] s t) ∧
    (∃ t, exec (.skipNeReg x y) s = .next t ∧ CompletedSkip (s.reg x ≠ s.reg y) s t ∧
      UnchangedExcept [.pc, .result] s t)

/-- The key skips: the key named by the register's value, modulo 16 where the policy wraps, and nothing else written
(43_skip.md; the spec's decisions D7 and D12, log 8, 30). -/
def Obligations.KeySkips : Prop :=
  ∀ (s : State) (x k : Nibble),
    (s.reg x).toNat ≤ 15 ∨ s.policy.nibblePolicy = .wrap → k.toNat = (s.reg x).toNat % 16 →
    (∃ t, exec (.skipKeyDown x) s = .next t ∧ CompletedSkip (s.key k = true) s t ∧
      UnchangedExcept [.pc, .result] s t) ∧
    (∃ t, exec (.skipKeyUp x) s = .next t ∧ CompletedSkip (s.key k = false) s t ∧
      UnchangedExcept [.pc, .result] s t)

/-- A register value above 15 where a nibble is wanted raises `NibbleOutOfRange` under the policy `fault`, before
anything is done (43_skip.md, 45_index_memory.md; the policy is the spec's decision D7, log 8). -/
def Obligations.NibbleFaultOfThreeInstructions : Prop :=
  ∀ (s : State) (x : Nibble), 15 < (s.reg x).toNat → s.policy.nibblePolicy = .fault →
    (∃ t, exec (.skipKeyDown x) s = .next t ∧ RaisedOnly (.nibbleOutOfRange (s.reg x).toNat) s t) ∧
    (∃ t, exec (.skipKeyUp x) s = .next t ∧ RaisedOnly (.nibbleOutOfRange (s.reg x).toNat) s t) ∧
    (∃ t, exec (.fontAddr x) s = .next t ∧ RaisedOnly (.nibbleOutOfRange (s.reg x).toNat) s t)

/-! ### Load, arithmetic, logic, shifts, random -/

/-- `LoadImm`, `AddImm` (wrapping, no flag) and `Copy` write their destination and nothing else (44_load_alu.md section 2;
the spec's decision D12, log 30). -/
def Obligations.LoadAddCopyWriteDestination : Prop :=
  ∀ (s : State) (x y : Nibble) (nn : Byte),
    (∃ t, exec (.loadImm x nn) s = .next t ∧ t.reg x = nn ∧ RegsUnchangedExcept [x] s t ∧ CompletedNext s t ∧
      UnchangedExcept [.regs, .pc, .result] s t) ∧
    (∃ t, exec (.addImm x nn) s = .next t ∧ (t.reg x).toNat = ((s.reg x).toNat + nn.toNat) % 256 ∧
      RegsUnchangedExcept [x] s t ∧ CompletedNext s t ∧ UnchangedExcept [.regs, .pc, .result] s t) ∧
    (∃ t, exec (.copy x y) s = .next t ∧ t.reg x = s.reg y ∧ RegsUnchangedExcept [x] s t ∧ CompletedNext s t ∧
      UnchangedExcept [.regs, .pc, .result] s t)

/-- The logic operations write their result and then reset the flag register, also when it is the destination (R164,
R165, R166). -/
def Obligations.LogicResetsFlag : Prop :=
  ∀ (s : State) (x y : Nibble),
    (∃ t, exec (.or x y) s = .next t ∧ t.reg 15#4 = 0#8 ∧ (x ≠ 15#4 → t.reg x = s.reg x ||| s.reg y) ∧
      RegsUnchangedExcept [x, 15#4] s t ∧ CompletedNext s t ∧ UnchangedExcept [.regs, .pc, .result] s t) ∧
    (∃ t, exec (.and x y) s = .next t ∧ t.reg 15#4 = 0#8 ∧ (x ≠ 15#4 → t.reg x = s.reg x &&& s.reg y) ∧
      RegsUnchangedExcept [x, 15#4] s t ∧ CompletedNext s t ∧ UnchangedExcept [.regs, .pc, .result] s t) ∧
    (∃ t, exec (.xor x y) s = .next t ∧ t.reg 15#4 = 0#8 ∧ (x ≠ 15#4 → t.reg x = s.reg x ^^^ s.reg y) ∧
      RegsUnchangedExcept [x, 15#4] s t ∧ CompletedNext s t ∧ UnchangedExcept [.regs, .pc, .result] s t)

/-- `AddReg`: the wrapped sum, then the carry out in the flag register (44_load_alu.md section 4). That the flag is written
last, and so remains when it is the destination, is the spec's decision D6 (log 20). -/
def Obligations.AddRegSumAndCarry : Prop :=
  ∀ (s : State) (x y : Nibble),
    ∃ t, exec (.addReg x y) s = .next t ∧
      (255 < (s.reg x).toNat + (s.reg y).toNat → t.reg 15#4 = 1#8) ∧
      ((s.reg x).toNat + (s.reg y).toNat ≤ 255 → t.reg 15#4 = 0#8) ∧
      (x ≠ 15#4 → (t.reg x).toNat = ((s.reg x).toNat + (s.reg y).toNat) % 256) ∧
      RegsUnchangedExcept [x, 15#4] s t ∧ CompletedNext s t ∧ UnchangedExcept [.regs, .pc, .result] s t

/-- `SubReg` and `SubRev`: the wrapped difference, then the inverted borrow in the flag register (44_load_alu.md section 4;
the order is the spec's decision D6, log 20). -/
def Obligations.SubtractDifferenceAndBorrow : Prop :=
  ∀ (s : State) (x y : Nibble),
    (∃ t, exec (.subReg x y) s = .next t ∧
      ((s.reg y).toNat ≤ (s.reg x).toNat → t.reg 15#4 = 1#8) ∧
      ((s.reg x).toNat < (s.reg y).toNat → t.reg 15#4 = 0#8) ∧
      (x ≠ 15#4 → ((t.reg x).toNat : Int) = (((s.reg x).toNat : Int) - (s.reg y).toNat) % 256) ∧
      RegsUnchangedExcept [x, 15#4] s t ∧ CompletedNext s t ∧ UnchangedExcept [.regs, .pc, .result] s t) ∧
    (∃ t, exec (.subRev x y) s = .next t ∧
      ((s.reg x).toNat ≤ (s.reg y).toNat → t.reg 15#4 = 1#8) ∧
      ((s.reg y).toNat < (s.reg x).toNat → t.reg 15#4 = 0#8) ∧
      (x ≠ 15#4 → ((t.reg x).toNat : Int) = (((s.reg y).toNat : Int) - (s.reg x).toNat) % 256) ∧
      RegsUnchangedExcept [x, 15#4] s t ∧ CompletedNext s t ∧ UnchangedExcept [.regs, .pc, .result] s t)

/-- `ShiftRight`: half of `x[Y]`, then the bit shifted out in the flag register (44_load_alu.md section 5; the order is the
spec's decision D6, log 20). -/
def Obligations.ShiftRightHalvesSource : Prop :=
  ∀ (s : State) (x y : Nibble),
    ∃ t, exec (.shiftRight x y) s = .next t ∧ (t.reg 15#4).toNat = (s.reg y).toNat % 2 ∧
      (x ≠ 15#4 → (t.reg x).toNat = (s.reg y).toNat / 2) ∧
      RegsUnchangedExcept [x, 15#4] s t ∧ CompletedNext s t ∧ UnchangedExcept [.regs, .pc, .result] s t

/-- `ShiftLeft`: twice `x[Y]` modulo 256, then bit 7 of it in the flag register (44_load_alu.md section 5; that the source
is `x[Y]` is the spec's decision D28, log 26; the order is D6, log 20). -/
def Obligations.ShiftLeftDoublesSource : Prop :=
  ∀ (s : State) (x y : Nibble),
    ∃ t, exec (.shiftLeft x y) s = .next t ∧ (t.reg 15#4).toNat = (s.reg y).toNat / 128 ∧
      (x ≠ 15#4 → (t.reg x).toNat = 2 * (s.reg y).toNat % 256) ∧
      RegsUnchangedExcept [x, 15#4] s t ∧ CompletedNext s t ∧ UnchangedExcept [.regs, .pc, .result] s t

/-- `Random`: the free byte of this draw, masked, and one draw used up; true whatever the free byte is (44_load_alu.md
section 6; the spec's decision D12, the free byte is log 5). -/
def Obligations.RandomIsMaskedFreeByte : Prop :=
  ∀ (s : State) (x : Nibble) (nn : Byte),
    ∃ t, exec (.random x nn) s = .next t ∧ t.reg x = Config.randomByte s.draws &&& nn ∧ t.reg x &&& ~~~nn = 0#8 ∧
      t.draws = s.draws + 1 ∧ RegsUnchangedExcept [x] s t ∧ CompletedNext s t ∧
      UnchangedExcept [.regs, .draws, .pc, .result] s t

/-! ### Index register and memory -/

/-- `LoadIndex` and `AddIndex` (wrapping, no flag) write `I` only (45_index_memory.md; the spec's decisions D11 and D12,
log 30). -/
def Obligations.IndexLoadAndAdd : Prop :=
  ∀ (s : State) (nnn : Address) (x : Nibble),
    (∃ t, exec (.loadIndex nnn) s = .next t ∧ t.index = nnn ∧ CompletedNext s t ∧
      UnchangedExcept [.index, .pc, .result] s t) ∧
    (∃ t, exec (.addIndex x) s = .next t ∧ t.index.toNat = (s.index.toNat + (s.reg x).toNat) % 4096 ∧
      CompletedNext s t ∧ UnchangedExcept [.index, .pc, .result] s t)

/-- `FontAddr`: `I` at the 5-byte glyph of the digit, from whatever font base the machine has (45_index_memory.md; the
spec's decisions D7 and D8, log 6, 7, 8). -/
def Obligations.FontAddrPointsAtGlyph : Prop :=
  ∀ (s : State) (x : Nibble), (s.reg x).toNat ≤ 15 ∨ s.policy.nibblePolicy = .wrap →
    ∃ t, exec (.fontAddr x) s = .next t ∧
      t.index.toNat =
        ((s.policy.fontBase.getD Config.freeFontBase).toNat + 5 * ((s.reg x).toNat % 16)) % 4096 ∧
      CompletedNext s t ∧ UnchangedExcept [.index, .pc, .result] s t

/-- `Bcd`: hundreds, tens, ones at `I`, `I + 1`, `I + 2` on the ring; `I` and every other byte stay (45_index_memory.md;
the ring address is the spec's decision D10, log 21). -/
def Obligations.BcdStoresThreeDigits : Prop :=
  ∀ (s : State) (x : Nibble),
    ∃ t, exec (.bcd x) s = .next t ∧
      (s.mem.wf = true →
        (t.memRead (addrAdd s.index 0)).toNat = (s.reg x).toNat / 100 ∧
        (t.memRead (addrAdd s.index 1)).toNat = (s.reg x).toNat / 10 % 10 ∧
        (t.memRead (addrAdd s.index 2)).toNat = (s.reg x).toNat % 10) ∧
      MemUnchangedExcept (accessAddresses s 3) s t ∧ CompletedNext s t ∧ UnchangedExcept [.mem, .pc, .result] s t

/-- `StoreRegs`: `x[0]`..`x[X]` at `I`, `I + 1`, ... on the ring, `I` advanced by `X + 1`; every other byte stays
(45_index_memory.md; that `X` is inclusive is 90_conflicts.md C2, log 28; the ring address is D10, log 21). -/
def Obligations.StoreRegsWritesBlock : Prop :=
  ∀ (s : State) (x : Nibble),
    ∃ t, exec (.storeRegs x) s = .next t ∧
      (s.mem.wf = true → ∀ i : Nibble, i.toNat ≤ x.toNat → t.memRead (addrAdd s.index i.toNat) = s.reg i) ∧
      MemUnchangedExcept (accessAddresses s (x.toNat + 1)) s t ∧
      t.index.toNat = (s.index.toNat + x.toNat + 1) % 4096 ∧ CompletedNext s t ∧
      UnchangedExcept [.mem, .index, .pc, .result] s t

/-- `LoadRegs`: `x[0]`..`x[X]` from `I`, `I + 1`, ... on the ring, `I` advanced by `X + 1`; the registers above `X` and
memory stay (45_index_memory.md; that `X` is inclusive is 90_conflicts.md C2, log 28; the ring address is D10, log 21). -/
def Obligations.LoadRegsReadsBlock : Prop :=
  ∀ (s : State) (x : Nibble),
    ∃ t, exec (.loadRegs x) s = .next t ∧
      (∀ i : Nibble, i.toNat ≤ x.toNat → t.reg i = s.memRead (addrAdd s.index i.toNat)) ∧
      (∀ i : Nibble, x.toNat < i.toNat → t.reg i = s.reg i) ∧
      t.index.toNat = (s.index.toNat + x.toNat + 1) % 4096 ∧ CompletedNext s t ∧
      UnchangedExcept [.regs, .index, .pc, .result] s t

/-! ### Display -/

/-- `ClearScreen` turns every cell off and writes no flag (R190, R233). -/
def Obligations.ClearScreenTurnsAllOff : Prop :=
  ∀ s : State,
    ∃ t, exec .clearScreen s = .next t ∧ (∀ r c, t.fb.cell r c = false) ∧ CompletedNext s t ∧
      UnchangedExcept [.fb, .pc, .result] s t

/-- `Draw`: every cell on which a set sprite bit falls is complemented, the start position wraps, the body is clipped; the
flag register is 1 exactly when a lit cell went out, else 0; `I` and memory stay (46_display.md, 49_platform.md section 2;
the spec's decisions D20 and D24, log 25, 27). -/
def Obligations.DrawXorsSpriteAndReportsCollision : Prop :=
  ∀ (s : State) (x y n : Nibble) (rows : List Byte),
    rows = (List.range n.toNat).map (fun (i : Nat) => s.memRead (addrAdd s.index i)) →
    ∃ t, exec (.draw x y n) s = .next t ∧
      (∀ r c, r < 32 → c < 64 → t.fb.cell r c = drawnCell (s.reg x) (s.reg y) rows s.fb r c) ∧
      ((∃ r c, r < 32 ∧ c < 64 ∧ s.fb.cell r c = true ∧ t.fb.cell r c = false) → t.reg 15#4 = 1#8) ∧
      ((∀ r c, r < 32 → c < 64 → s.fb.cell r c = true → t.fb.cell r c = true) → t.reg 15#4 = 0#8) ∧
      RegsUnchangedExcept [15#4] s t ∧ CompletedNext s t ∧ UnchangedExcept [.regs, .fb, .pc, .result] s t

/-- Drawing the same rows twice at the same place restores the framebuffer; the second draw collides exactly when a set
bit fell on a cell of the grid that was off before the first (49_platform.md section 2, 90_conflicts.md C5; the bit order
and the clipping are the spec's decision D20, log 27). -/
def Obligations.DoubleDrawRestores : Prop :=
  ∀ (px py : Byte) (rows : List Byte) (fb : Framebuffer),
    (drawSprite px py rows (drawSprite px py rows fb).1).1 = fb ∧
    ((drawSprite px py rows (drawSprite px py rows fb).1).2 = true ↔
      ∃ r c, r < 32 ∧ c < 64 ∧ spriteBit (px.toNat % 64) (py.toNat % 32) rows r c = true ∧ fb.cell r c = false)

/-! ### Timers and keys -/

/-- `GetDelay`, `SetDelay`, `SetSound` move one byte between a register and a timer value; the tick accumulators stay
(47_timer_key.md; the spec's decision D12, log 30). -/
def Obligations.TimerInstructionsMoveAByte : Prop :=
  ∀ (s : State) (x : Nibble),
    (∃ t, exec (.getDelay x) s = .next t ∧ t.reg x = s.dt ∧ RegsUnchangedExcept [x] s t ∧ CompletedNext s t ∧
      UnchangedExcept [.regs, .pc, .result] s t) ∧
    (∃ t, exec (.setDelay x) s = .next t ∧ t.dt = s.reg x ∧ CompletedNext s t ∧
      UnchangedExcept [.dt, .pc, .result] s t) ∧
    (∃ t, exec (.setSound x) s = .next t ∧ t.st = s.reg x ∧ CompletedNext s t ∧
      UnchangedExcept [.st, .pc, .result] s t)

/-- `WaitKey` arms the wait and steps; no key is asked for in this cycle (47_timer_key.md; the spec's decision D13,
log 23). -/
def Obligations.WaitKeyArms : Prop :=
  ∀ (s : State) (x : Nibble),
    ∃ t, exec (.waitKey x) s = .next t ∧ t.awaitKey = some x ∧ CompletedNext s t ∧
      UnchangedExcept [.awaitKey, .pc, .result] s t

/-- The host's key events: a press sets the level, a release of a pressed key clears it and becomes the pending release,
a release of a key that is up does nothing (49_platform.md section 4; the spec's decision D20, log 27). -/
def Obligations.KeyEvents : Prop :=
  ∀ (s : State) (k : Nibble),
    (∃ t, hostCall (.keyDown k) s = .next t ∧ t.key k = true ∧ (∀ j, j ≠ k → t.key j = s.key j) ∧
      UnchangedExcept [.keys] s t) ∧
    (s.key k = true → ∃ t, hostCall (.keyUp k) s = .next t ∧ t.key k = false ∧ (∀ j, j ≠ k → t.key j = s.key j) ∧
      t.released = some k ∧ UnchangedExcept [.keys, .released] s t) ∧
    (s.key k = false → hostCall (.keyUp k) s = .next s)

/-! ### The scheduler -/

/-- A timer ticks when its accumulated time reaches the interval, and keeps the remainder (R213). -/
def Obligations.TimerTicksAndKeepsRemainder : Prop :=
  ∀ (t : Timer) (d : Nat),
    (t.interval ≤ t.acc + d → t.fires d = true ∧ (t.advance d).acc + t.interval = t.acc + d) ∧
    (t.acc + d < t.interval → t.fires d = false ∧ (t.advance d).acc = t.acc + d) ∧
    (t.advance d).interval = t.interval

/-- A delay or sound tick decrements its value by 1, saturating at 0, and touches nothing else (48_scheduler.md section 2;
that the set is issued at 0 too is the spec's decision D18, log 31). -/
def Obligations.TickDecrementsAndSaturates : Prop :=
  ∀ s : State,
    (∃ t, tickEffect .delay s = .next t ∧ t.dt.toNat = s.dt.toNat - 1 ∧ t.result = .ok ∧
      UnchangedExcept [.dt, .result] s t) ∧
    (∃ t, tickEffect .sound s = .next t ∧ t.st.toNat = s.st.toNat - 1 ∧ t.result = .ok ∧
      UnchangedExcept [.st, .result] s t)

/-- A fault in the instruction effect drops the effects after it in `TICK_ORDER` and keeps those before it, whatever the
order: `v` is the state in which the cycle starts, with the ticked timers of `before` decremented, and the iteration ends
in the state of the faulting cycle, with `DT` and `ST` as they were in `v` (48_scheduler.md section 2; that the order is a
parameter and that all accumulators advance first is the spec's decision D16, log 10, 31). -/
def Obligations.FaultDropsLaterTicksOnly : Prop :=
  ∀ (s : State) (d : Nat) (before after : List TimerId), s.tInstr.fires d = true →
    s.policy.tickOrder.toList = before ++ .instr :: after →
    ∃ v : State,
      v.dt.toNat = s.dt.toNat - (if TimerId.delay ∈ before ∧ s.tDelay.fires d = true then 1 else 0) ∧
      v.st.toNat = s.st.toNat - (if TimerId.sound ∈ before ∧ s.tSound.fires d = true then 1 else 0) ∧
      v.tInstr = s.tInstr.advance d ∧ v.tDelay = s.tDelay.advance d ∧ v.tSound = s.tSound.advance d ∧
      UnchangedExcept [.tInstr, .tDelay, .tSound, .dt, .st, .result] s v ∧
      ∀ (u : State) (f : Fault), runOneCycle v = .next u → u.result = .err f →
        advanceStep d s = .next u ∧ UnchangedExcept [.crashed, .result] v u

/-- `advance(D)` on timers in range answers a state with timers in range; without a fault each timer has counted exactly
`D` modulo its interval (48_scheduler.md section 4). -/
def Obligations.AdvanceCountsExactly : Prop :=
  ∀ (s : State) (d : Nat), s.timersInRange →
    ∃ t, advance d s = .next t ∧ t.timersInRange ∧
      t.tInstr.interval = s.tInstr.interval ∧ t.tDelay.interval = s.tDelay.interval ∧
      t.tSound.interval = s.tSound.interval ∧
      (t.result = .ok → t.tInstr.acc = (s.tInstr.acc + d) % s.tInstr.interval ∧
        t.tDelay.acc = (s.tDelay.acc + d) % s.tDelay.interval ∧
        t.tSound.acc = (s.tSound.acc + d) % s.tSound.interval)

/-- Chunking: advancing by `D1` without a fault and then by `D2` is advancing by `D1 + D2` (48_scheduler.md section 4). -/
def Obligations.AdvanceChunks : Prop :=
  ∀ (s t : State) (d1 d2 : Nat), s.timersInRange → advance d1 s = .next t → t.result = .ok →
    advance d2 t = advance (d1 + d2) s

/-- The single-tick primitive, when no other timer ticks on the way, runs exactly one cycle after the time has passed
(48_scheduler.md section 3; its definition is the spec's decision D17, log 31). -/
def Obligations.OneTickRunsOneCycle : Prop :=
  ∀ s : State, s.timersInRange → s.tInstr.untilNext < s.tDelay.untilNext →
    s.tInstr.untilNext < s.tSound.untilNext →
    advanceOneInstructionTick s = runOneCycle (advanceTimers s.tInstr.untilNext (s.setResult .ok))

/-! ### The whole machine -/

/-- Every step, whatever the host calls, keeps the invariant: canonical memory, at most 15 stack entries, timers in range,
an error only on a crashed machine. -/
def Obligations.StepKeepsInvariant : Prop :=
  ∀ s t : State, s.Inv → step s = .next t → t.Inv

/-- The state after reset meets the invariant. -/
def Obligations.ResetMeetsInvariant : Prop := State.reset.Inv

/-- A crashed machine stays crashed, and its core does not change, whatever the host calls but a reset (10_state.md
section 7, 60_exceptions.md section 5). -/
def Obligations.CrashIsTerminal : Prop :=
  ∀ s t : State, s.crashed = true → (∀ c, s.hostQueue.head? = some c → c.isReset = false) → step s = .next t →
    UnchangedExcept [.tInstr, .tDelay, .tSound, .dt, .st, .keys, .released, .result, .hostQueue] s t
end

