-- ==== Sys2Proof/Laws/Decode.lean ====
section
/-! SUPPORT. The fields of a word built from fields, the word built from its own fields, and every instruction well
formed. -/

namespace Sys2Proof

theorem wordXYN_toNat (op x y n : Nibble) :
    (wordXYN op x y n).toNat = op.toNat * 4096 + x.toNat * 256 + y.toNat * 16 + n.toNat := by
  have h1 := BitVec.toNat_append (op ++ x ++ y) n
  have h2 := BitVec.toNat_append (op ++ x) y
  have h3 := BitVec.toNat_append op x
  rw [h2, h3] at h1
  have h4 : (wordXYN op x y n).toNat = _ := h1
  rw [h4, ← Nat.shiftLeft_add_eq_or_of_lt, ← Nat.shiftLeft_add_eq_or_of_lt, ← Nat.shiftLeft_add_eq_or_of_lt]
  all_goals simp [Nat.shiftLeft_eq]; try omega

theorem wordXNN_toNat (op x : Nibble) (nn : Byte) :
    (wordXNN op x nn).toNat = op.toNat * 4096 + x.toNat * 256 + nn.toNat := by
  have h1 := BitVec.toNat_append (op ++ x) nn
  have h2 := BitVec.toNat_append op x
  rw [h2] at h1
  have h4 : (wordXNN op x nn).toNat = _ := h1
  rw [h4, ← Nat.shiftLeft_add_eq_or_of_lt, ← Nat.shiftLeft_add_eq_or_of_lt]
  all_goals simp [Nat.shiftLeft_eq]; try omega

theorem wordNNN_toNat (op : Nibble) (nnn : Address) : (wordNNN op nnn).toNat = op.toNat * 4096 + nnn.toNat := by
  have h4 : (wordNNN op nnn).toNat = _ := BitVec.toNat_append op nnn
  rw [h4, ← Nat.shiftLeft_add_eq_or_of_lt]
  all_goals simp [Nat.shiftLeft_eq]; try omega

theorem fieldOP_toNat (w : Word) : (fieldOP w).toNat = w.toNat / 4096 := by
  have := w.isLt
  simp [fieldOP, Nat.shiftRight_eq_div_pow]; omega

theorem fieldX_toNat (w : Word) : (fieldX w).toNat = w.toNat / 256 % 16 := by
  simp [fieldX, Nat.shiftRight_eq_div_pow]

theorem fieldY_toNat (w : Word) : (fieldY w).toNat = w.toNat / 16 % 16 := by
  simp [fieldY, Nat.shiftRight_eq_div_pow]

theorem fieldN_toNat (w : Word) : (fieldN w).toNat = w.toNat % 16 := by
  simp [fieldN]

theorem fieldNN_toNat (w : Word) : (fieldNN w).toNat = w.toNat % 256 := by
  simp [fieldNN]

theorem fieldNNN_toNat (w : Word) : (fieldNNN w).toNat = w.toNat % 4096 := by
  simp [fieldNNN]

theorem fieldHI_toNat (w : Word) : (fieldHI w).toNat = w.toNat / 256 := by
  have := w.isLt
  simp [fieldHI, Nat.shiftRight_eq_div_pow]; omega

theorem wordOfBytes_toNat (hi lo : Byte) : (wordOfBytes hi lo).toNat = hi.toNat * 256 + lo.toNat := by
  have h4 : (wordOfBytes hi lo).toNat = _ := BitVec.toNat_append hi lo
  rw [h4, ← Nat.shiftLeft_add_eq_or_of_lt]
  all_goals simp [Nat.shiftLeft_eq]; try omega

section
variable (op x y n : Nibble) (nn : Byte) (nnn : Address) (w : Word)

@[simp] theorem fieldOP_wordXYN : fieldOP (wordXYN op x y n) = op := by
  apply BitVec.eq_of_toNat_eq; rw [fieldOP_toNat, wordXYN_toNat]; omega
@[simp] theorem fieldX_wordXYN : fieldX (wordXYN op x y n) = x := by
  apply BitVec.eq_of_toNat_eq; rw [fieldX_toNat, wordXYN_toNat]; omega
@[simp] theorem fieldY_wordXYN : fieldY (wordXYN op x y n) = y := by
  apply BitVec.eq_of_toNat_eq; rw [fieldY_toNat, wordXYN_toNat]; omega
@[simp] theorem fieldN_wordXYN : fieldN (wordXYN op x y n) = n := by
  apply BitVec.eq_of_toNat_eq; rw [fieldN_toNat, wordXYN_toNat]; omega
@[simp] theorem fieldOP_wordXNN : fieldOP (wordXNN op x nn) = op := by
  apply BitVec.eq_of_toNat_eq; rw [fieldOP_toNat, wordXNN_toNat]; omega
@[simp] theorem fieldX_wordXNN : fieldX (wordXNN op x nn) = x := by
  apply BitVec.eq_of_toNat_eq; rw [fieldX_toNat, wordXNN_toNat]; omega
@[simp] theorem fieldNN_wordXNN : fieldNN (wordXNN op x nn) = nn := by
  apply BitVec.eq_of_toNat_eq; rw [fieldNN_toNat, wordXNN_toNat]; omega
@[simp] theorem fieldOP_wordNNN : fieldOP (wordNNN op nnn) = op := by
  apply BitVec.eq_of_toNat_eq; rw [fieldOP_toNat, wordNNN_toNat]; omega
@[simp] theorem fieldNNN_wordNNN : fieldNNN (wordNNN op nnn) = nnn := by
  apply BitVec.eq_of_toNat_eq; rw [fieldNNN_toNat, wordNNN_toNat]; omega

/-- A word is its four nibbles (R71). -/
theorem wordXYN_fields : wordXYN (fieldOP w) (fieldX w) (fieldY w) (fieldN w) = w := by
  apply BitVec.eq_of_toNat_eq
  rw [wordXYN_toNat, fieldOP_toNat, fieldX_toNat, fieldY_toNat, fieldN_toNat]; omega

/-- A word is its two upper nibbles and its low byte (R71). -/
theorem wordXNN_fields : wordXNN (fieldOP w) (fieldX w) (fieldNN w) = w := by
  apply BitVec.eq_of_toNat_eq
  rw [wordXNN_toNat, fieldOP_toNat, fieldX_toNat, fieldNN_toNat]; omega

/-- A word is its high nibble and its 12-bit field (R71). -/
theorem wordNNN_fields : wordNNN (fieldOP w) (fieldNNN w) = w := by
  apply BitVec.eq_of_toNat_eq
  rw [wordNNN_toNat, fieldOP_toNat, fieldNNN_toNat]; omega

/-- A word is its two bytes, high byte first (R55). -/
@[simp] theorem wordOfBytes_bytesOfWord : wordOfBytes (bytesOfWord w).1 (bytesOfWord w).2 = w := by
  apply BitVec.eq_of_toNat_eq
  rw [wordOfBytes_toNat]
  show (fieldHI w).toNat * 256 + (fieldNN w).toNat = w.toNat
  rw [fieldHI_toNat, fieldNN_toNat]; omega

end

/-- AND of two words nibble by nibble. -/
theorem wordXYN_and (op x y n a b c d : Nibble) :
    wordXYN op x y n &&& wordXYN a b c d = wordXYN (op &&& a) (x &&& b) (y &&& c) (n &&& d) := by
  unfold wordXYN
  have h1 := @BitVec.and_append 4 4 op a x b
  have h2 := @BitVec.and_append 8 4 (op ++ x) (a ++ b) y c
  have h3 := @BitVec.and_append 12 4 (op ++ x ++ y) (a ++ b ++ c) n d
  rw [← h1, ← h2]
  exact h3

theorem Nibble.and_15 (x : Nibble) : x &&& 15#4 = x := by
  have h := @BitVec.and_allOnes 4 x
  exact h

/-- The bits under the mask of a row selected by the high nibble (R75). -/
theorem and_F000 (w : Word) : w &&& 0xF000#16 = wordXYN (fieldOP w) 0#4 0#4 0#4 := by
  have h := wordXYN_and (fieldOP w) (fieldX w) (fieldY w) (fieldN w) 0xF#4 0#4 0#4 0#4
  have hm : wordXYN 0xF#4 0#4 0#4 0#4 = 0xF000#16 := by decide
  rw [wordXYN_fields, hm] at h
  simpa [Nibble.and_15] using h

/-- The bits under the mask of a row selected by the high and the low nibble (R75). -/
theorem and_F00F (w : Word) : w &&& 0xF00F#16 = wordXYN (fieldOP w) 0#4 0#4 (fieldN w) := by
  have h := wordXYN_and (fieldOP w) (fieldX w) (fieldY w) (fieldN w) 0xF#4 0#4 0#4 0xF#4
  have hm : wordXYN 0xF#4 0#4 0#4 0xF#4 = 0xF00F#16 := by decide
  rw [wordXYN_fields, hm] at h
  simpa [Nibble.and_15] using h

/-- The bits under the mask of a row selected by the high nibble and the low byte (R75). -/
theorem and_F0FF (w : Word) : w &&& 0xF0FF#16 = wordXNN (fieldOP w) 0#4 (fieldNN w) := by
  have h := wordXYN_and (fieldOP w) (fieldX w) (fieldY w) (fieldN w) 0xF#4 0#4 0xF#4 0xF#4
  have hm : wordXYN 0xF#4 0#4 0xF#4 0xF#4 = 0xF0FF#16 := by decide
  rw [wordXYN_fields, hm] at h
  have e : wordXNN (fieldOP w) 0#4 (fieldNN w) = wordXYN (fieldOP w) 0#4 (fieldY w) (fieldN w) := by
    apply BitVec.eq_of_toNat_eq
    rw [wordXNN_toNat, wordXYN_toNat, fieldNN_toNat, fieldY_toNat, fieldN_toNat]
    simp; omega
  rw [e]
  simpa [Nibble.and_15] using h

/-! ### When a word selects a row (R75) -/

/-- A word selects a row with mask 0xF000 when its high nibble is the row's. -/
theorem selects_highNibble (w : Word) (a : Nibble) {m : Word} (hm : m = wordXYN a 0#4 0#4 0#4) :
    (w &&& 0xF000#16 == m) = decide (fieldOP w = a) := by
  subst hm
  rw [and_F000, Bool.eq_iff_iff, beq_iff_eq, decide_eq_true_eq]
  exact ⟨fun h => by have := congrArg fieldOP h; simpa using this, fun h => by rw [h]⟩

/-- A word selects a row with mask 0xF00F when its high and low nibbles are the row's. -/
theorem selects_twoNibbles (w : Word) (a d : Nibble) {m : Word} (hm : m = wordXYN a 0#4 0#4 d) :
    (w &&& 0xF00F#16 == m) = decide (fieldOP w = a ∧ fieldN w = d) := by
  subst hm
  rw [and_F00F, Bool.eq_iff_iff, beq_iff_eq, decide_eq_true_eq]
  exact ⟨fun h => ⟨by have := congrArg fieldOP h; simpa using this, by have := congrArg fieldN h; simpa using this⟩,
    fun h => by rw [h.1, h.2]⟩

/-- A word selects a row with mask 0xF0FF when its high nibble and low byte are the row's. -/
theorem selects_lowByte (w : Word) (a : Nibble) (d : Byte) {m : Word} (hm : m = wordXNN a 0#4 d) :
    (w &&& 0xF0FF#16 == m) = decide (fieldOP w = a ∧ fieldNN w = d) := by
  subst hm
  rw [and_F0FF, Bool.eq_iff_iff, beq_iff_eq, decide_eq_true_eq]
  exact ⟨fun h => ⟨by have := congrArg fieldOP h; simpa using this, by have := congrArg fieldNN h; simpa using this⟩,
    fun h => by rw [h.1, h.2]⟩

/-- The last case of the decoder is family F. -/
theorem fieldOP_eq_F (w : Word) (h : ∀ n : Nat, n < 15 → fieldOP w ≠ BitVec.ofNat 4 n) : fieldOP w = 0xF#4 := by
  by_contra hf
  have hlt := (fieldOP w).isLt
  have hne : (fieldOP w).toNat ≠ 15 := fun e => hf (BitVec.eq_of_toNat_eq e)
  exact h (fieldOP w).toNat (by omega) (by simp)

/-- The decoder's error carries the word itself (R77). -/
theorem decode_error {strict : Bool} {w w' : Word} (h : decode strict w = .error (.unknownOpcode w')) : w' = w := by
  unfold decode at h
  split at h <;> simp [decodeFamily0, decodeFamily59, decodeFamily8, decodeFamilyE, decodeFamilyF] at h
  all_goals (repeat' split at h) <;> first | (cases h; done) | (cases h; rfl)

/-- The field types carry the bounds of R72: every instruction is well formed. -/
theorem Instr.wellFormed_true (i : Instr) : i.wellFormed = true := by
  have hn : ∀ x : Nibble, nibbleInRange x = true := fun x => decide_eq_true (Nat.le_of_lt_succ x.isLt)
  have hb : ∀ x : Byte, byteInRange x = true := fun x => decide_eq_true (Nat.le_of_lt_succ x.isLt)
  have ha : ∀ x : Address, addressInRange x = true := fun x => decide_eq_true (Nat.le_of_lt_succ x.isLt)
  cases i <;> simp [Instr.wellFormed, hn, hb, ha]

end Sys2Proof
end

