-- ==== Sys2Proof/Laws/State.lean ====
section
/-! SUPPORT. One lemma per field per setter of Machine/Ops.lean, and per reader per setter, so that no later proof
unfolds a record update. -/

namespace Sys2Proof.Machine

variable (s : State)

/-! ### setReg -/

@[simp] theorem State.setReg_index (i : Nibble) (v : Byte) : (s.setReg i v).index = s.index := rfl
@[simp] theorem State.setReg_pc (i : Nibble) (v : Byte) : (s.setReg i v).pc = s.pc := rfl
@[simp] theorem State.setReg_stack (i : Nibble) (v : Byte) : (s.setReg i v).stack = s.stack := rfl
@[simp] theorem State.setReg_awaitKey (i : Nibble) (v : Byte) : (s.setReg i v).awaitKey = s.awaitKey := rfl
@[simp] theorem State.setReg_crashed (i : Nibble) (v : Byte) : (s.setReg i v).crashed = s.crashed := rfl
@[simp] theorem State.setReg_mem (i : Nibble) (v : Byte) : (s.setReg i v).mem = s.mem := rfl
@[simp] theorem State.setReg_tInstr (i : Nibble) (v : Byte) : (s.setReg i v).tInstr = s.tInstr := rfl
@[simp] theorem State.setReg_tDelay (i : Nibble) (v : Byte) : (s.setReg i v).tDelay = s.tDelay := rfl
@[simp] theorem State.setReg_tSound (i : Nibble) (v : Byte) : (s.setReg i v).tSound = s.tSound := rfl
@[simp] theorem State.setReg_dt (i : Nibble) (v : Byte) : (s.setReg i v).dt = s.dt := rfl
@[simp] theorem State.setReg_st (i : Nibble) (v : Byte) : (s.setReg i v).st = s.st := rfl
@[simp] theorem State.setReg_fb (i : Nibble) (v : Byte) : (s.setReg i v).fb = s.fb := rfl
@[simp] theorem State.setReg_keys (i : Nibble) (v : Byte) : (s.setReg i v).keys = s.keys := rfl
@[simp] theorem State.setReg_released (i : Nibble) (v : Byte) : (s.setReg i v).released = s.released := rfl
@[simp] theorem State.setReg_policy (i : Nibble) (v : Byte) : (s.setReg i v).policy = s.policy := rfl
@[simp] theorem State.setReg_result (i : Nibble) (v : Byte) : (s.setReg i v).result = s.result := rfl
@[simp] theorem State.setReg_draws (i : Nibble) (v : Byte) : (s.setReg i v).draws = s.draws := rfl
@[simp] theorem State.setReg_hostQueue (i : Nibble) (v : Byte) : (s.setReg i v).hostQueue = s.hostQueue := rfl
@[simp] theorem State.setReg_memRead (i : Nibble) (v : Byte) (b : Address) : (s.setReg i v).memRead b = s.memRead b := rfl
@[simp] theorem State.setReg_key (i : Nibble) (v : Byte) (j : Nibble) : (s.setReg i v).key j = s.key j := rfl
@[simp] theorem State.setReg_timer (i : Nibble) (v : Byte) (t : TimerId) : (s.setReg i v).timer t = s.timer t := by cases t <;> rfl

/-! ### setIndex -/

@[simp] theorem State.setIndex_regs (a : Address) : (s.setIndex a).regs = s.regs := rfl
@[simp] theorem State.setIndex_index (a : Address) : (s.setIndex a).index = a := rfl
@[simp] theorem State.setIndex_pc (a : Address) : (s.setIndex a).pc = s.pc := rfl
@[simp] theorem State.setIndex_stack (a : Address) : (s.setIndex a).stack = s.stack := rfl
@[simp] theorem State.setIndex_awaitKey (a : Address) : (s.setIndex a).awaitKey = s.awaitKey := rfl
@[simp] theorem State.setIndex_crashed (a : Address) : (s.setIndex a).crashed = s.crashed := rfl
@[simp] theorem State.setIndex_mem (a : Address) : (s.setIndex a).mem = s.mem := rfl
@[simp] theorem State.setIndex_tInstr (a : Address) : (s.setIndex a).tInstr = s.tInstr := rfl
@[simp] theorem State.setIndex_tDelay (a : Address) : (s.setIndex a).tDelay = s.tDelay := rfl
@[simp] theorem State.setIndex_tSound (a : Address) : (s.setIndex a).tSound = s.tSound := rfl
@[simp] theorem State.setIndex_dt (a : Address) : (s.setIndex a).dt = s.dt := rfl
@[simp] theorem State.setIndex_st (a : Address) : (s.setIndex a).st = s.st := rfl
@[simp] theorem State.setIndex_fb (a : Address) : (s.setIndex a).fb = s.fb := rfl
@[simp] theorem State.setIndex_keys (a : Address) : (s.setIndex a).keys = s.keys := rfl
@[simp] theorem State.setIndex_released (a : Address) : (s.setIndex a).released = s.released := rfl
@[simp] theorem State.setIndex_policy (a : Address) : (s.setIndex a).policy = s.policy := rfl
@[simp] theorem State.setIndex_result (a : Address) : (s.setIndex a).result = s.result := rfl
@[simp] theorem State.setIndex_draws (a : Address) : (s.setIndex a).draws = s.draws := rfl
@[simp] theorem State.setIndex_hostQueue (a : Address) : (s.setIndex a).hostQueue = s.hostQueue := rfl
@[simp] theorem State.setIndex_reg (a : Address) (j : Nibble) : (s.setIndex a).reg j = s.reg j := rfl
@[simp] theorem State.setIndex_memRead (a : Address) (b : Address) : (s.setIndex a).memRead b = s.memRead b := rfl
@[simp] theorem State.setIndex_key (a : Address) (j : Nibble) : (s.setIndex a).key j = s.key j := rfl
@[simp] theorem State.setIndex_timer (a : Address) (t : TimerId) : (s.setIndex a).timer t = s.timer t := by cases t <;> rfl

/-! ### setPc -/

@[simp] theorem State.setPc_regs (a : Address) : (s.setPc a).regs = s.regs := rfl
@[simp] theorem State.setPc_index (a : Address) : (s.setPc a).index = s.index := rfl
@[simp] theorem State.setPc_pc (a : Address) : (s.setPc a).pc = a := rfl
@[simp] theorem State.setPc_stack (a : Address) : (s.setPc a).stack = s.stack := rfl
@[simp] theorem State.setPc_awaitKey (a : Address) : (s.setPc a).awaitKey = s.awaitKey := rfl
@[simp] theorem State.setPc_crashed (a : Address) : (s.setPc a).crashed = s.crashed := rfl
@[simp] theorem State.setPc_mem (a : Address) : (s.setPc a).mem = s.mem := rfl
@[simp] theorem State.setPc_tInstr (a : Address) : (s.setPc a).tInstr = s.tInstr := rfl
@[simp] theorem State.setPc_tDelay (a : Address) : (s.setPc a).tDelay = s.tDelay := rfl
@[simp] theorem State.setPc_tSound (a : Address) : (s.setPc a).tSound = s.tSound := rfl
@[simp] theorem State.setPc_dt (a : Address) : (s.setPc a).dt = s.dt := rfl
@[simp] theorem State.setPc_st (a : Address) : (s.setPc a).st = s.st := rfl
@[simp] theorem State.setPc_fb (a : Address) : (s.setPc a).fb = s.fb := rfl
@[simp] theorem State.setPc_keys (a : Address) : (s.setPc a).keys = s.keys := rfl
@[simp] theorem State.setPc_released (a : Address) : (s.setPc a).released = s.released := rfl
@[simp] theorem State.setPc_policy (a : Address) : (s.setPc a).policy = s.policy := rfl
@[simp] theorem State.setPc_result (a : Address) : (s.setPc a).result = s.result := rfl
@[simp] theorem State.setPc_draws (a : Address) : (s.setPc a).draws = s.draws := rfl
@[simp] theorem State.setPc_hostQueue (a : Address) : (s.setPc a).hostQueue = s.hostQueue := rfl
@[simp] theorem State.setPc_reg (a : Address) (j : Nibble) : (s.setPc a).reg j = s.reg j := rfl
@[simp] theorem State.setPc_memRead (a : Address) (b : Address) : (s.setPc a).memRead b = s.memRead b := rfl
@[simp] theorem State.setPc_key (a : Address) (j : Nibble) : (s.setPc a).key j = s.key j := rfl
@[simp] theorem State.setPc_timer (a : Address) (t : TimerId) : (s.setPc a).timer t = s.timer t := by cases t <;> rfl

/-! ### setStack -/

@[simp] theorem State.setStack_regs (l : List Address) : (s.setStack l).regs = s.regs := rfl
@[simp] theorem State.setStack_index (l : List Address) : (s.setStack l).index = s.index := rfl
@[simp] theorem State.setStack_pc (l : List Address) : (s.setStack l).pc = s.pc := rfl
@[simp] theorem State.setStack_stack (l : List Address) : (s.setStack l).stack = l := rfl
@[simp] theorem State.setStack_awaitKey (l : List Address) : (s.setStack l).awaitKey = s.awaitKey := rfl
@[simp] theorem State.setStack_crashed (l : List Address) : (s.setStack l).crashed = s.crashed := rfl
@[simp] theorem State.setStack_mem (l : List Address) : (s.setStack l).mem = s.mem := rfl
@[simp] theorem State.setStack_tInstr (l : List Address) : (s.setStack l).tInstr = s.tInstr := rfl
@[simp] theorem State.setStack_tDelay (l : List Address) : (s.setStack l).tDelay = s.tDelay := rfl
@[simp] theorem State.setStack_tSound (l : List Address) : (s.setStack l).tSound = s.tSound := rfl
@[simp] theorem State.setStack_dt (l : List Address) : (s.setStack l).dt = s.dt := rfl
@[simp] theorem State.setStack_st (l : List Address) : (s.setStack l).st = s.st := rfl
@[simp] theorem State.setStack_fb (l : List Address) : (s.setStack l).fb = s.fb := rfl
@[simp] theorem State.setStack_keys (l : List Address) : (s.setStack l).keys = s.keys := rfl
@[simp] theorem State.setStack_released (l : List Address) : (s.setStack l).released = s.released := rfl
@[simp] theorem State.setStack_policy (l : List Address) : (s.setStack l).policy = s.policy := rfl
@[simp] theorem State.setStack_result (l : List Address) : (s.setStack l).result = s.result := rfl
@[simp] theorem State.setStack_draws (l : List Address) : (s.setStack l).draws = s.draws := rfl
@[simp] theorem State.setStack_hostQueue (l : List Address) : (s.setStack l).hostQueue = s.hostQueue := rfl
@[simp] theorem State.setStack_reg (l : List Address) (j : Nibble) : (s.setStack l).reg j = s.reg j := rfl
@[simp] theorem State.setStack_memRead (l : List Address) (b : Address) : (s.setStack l).memRead b = s.memRead b := rfl
@[simp] theorem State.setStack_key (l : List Address) (j : Nibble) : (s.setStack l).key j = s.key j := rfl
@[simp] theorem State.setStack_timer (l : List Address) (t : TimerId) : (s.setStack l).timer t = s.timer t := by cases t <;> rfl

/-! ### setAwait -/

@[simp] theorem State.setAwait_regs (k : Option Nibble) : (s.setAwait k).regs = s.regs := rfl
@[simp] theorem State.setAwait_index (k : Option Nibble) : (s.setAwait k).index = s.index := rfl
@[simp] theorem State.setAwait_pc (k : Option Nibble) : (s.setAwait k).pc = s.pc := rfl
@[simp] theorem State.setAwait_stack (k : Option Nibble) : (s.setAwait k).stack = s.stack := rfl
@[simp] theorem State.setAwait_awaitKey (k : Option Nibble) : (s.setAwait k).awaitKey = k := rfl
@[simp] theorem State.setAwait_crashed (k : Option Nibble) : (s.setAwait k).crashed = s.crashed := rfl
@[simp] theorem State.setAwait_mem (k : Option Nibble) : (s.setAwait k).mem = s.mem := rfl
@[simp] theorem State.setAwait_tInstr (k : Option Nibble) : (s.setAwait k).tInstr = s.tInstr := rfl
@[simp] theorem State.setAwait_tDelay (k : Option Nibble) : (s.setAwait k).tDelay = s.tDelay := rfl
@[simp] theorem State.setAwait_tSound (k : Option Nibble) : (s.setAwait k).tSound = s.tSound := rfl
@[simp] theorem State.setAwait_dt (k : Option Nibble) : (s.setAwait k).dt = s.dt := rfl
@[simp] theorem State.setAwait_st (k : Option Nibble) : (s.setAwait k).st = s.st := rfl
@[simp] theorem State.setAwait_fb (k : Option Nibble) : (s.setAwait k).fb = s.fb := rfl
@[simp] theorem State.setAwait_keys (k : Option Nibble) : (s.setAwait k).keys = s.keys := rfl
@[simp] theorem State.setAwait_released (k : Option Nibble) : (s.setAwait k).released = s.released := rfl
@[simp] theorem State.setAwait_policy (k : Option Nibble) : (s.setAwait k).policy = s.policy := rfl
@[simp] theorem State.setAwait_result (k : Option Nibble) : (s.setAwait k).result = s.result := rfl
@[simp] theorem State.setAwait_draws (k : Option Nibble) : (s.setAwait k).draws = s.draws := rfl
@[simp] theorem State.setAwait_hostQueue (k : Option Nibble) : (s.setAwait k).hostQueue = s.hostQueue := rfl
@[simp] theorem State.setAwait_reg (k : Option Nibble) (j : Nibble) : (s.setAwait k).reg j = s.reg j := rfl
@[simp] theorem State.setAwait_memRead (k : Option Nibble) (b : Address) : (s.setAwait k).memRead b = s.memRead b := rfl
@[simp] theorem State.setAwait_key (k : Option Nibble) (j : Nibble) : (s.setAwait k).key j = s.key j := rfl
@[simp] theorem State.setAwait_timer (k : Option Nibble) (t : TimerId) : (s.setAwait k).timer t = s.timer t := by cases t <;> rfl

/-! ### crash -/

@[simp] theorem State.crash_regs : (s.crash).regs = s.regs := rfl
@[simp] theorem State.crash_index : (s.crash).index = s.index := rfl
@[simp] theorem State.crash_pc : (s.crash).pc = s.pc := rfl
@[simp] theorem State.crash_stack : (s.crash).stack = s.stack := rfl
@[simp] theorem State.crash_awaitKey : (s.crash).awaitKey = s.awaitKey := rfl
@[simp] theorem State.crash_crashed : (s.crash).crashed = true := rfl
@[simp] theorem State.crash_mem : (s.crash).mem = s.mem := rfl
@[simp] theorem State.crash_tInstr : (s.crash).tInstr = s.tInstr := rfl
@[simp] theorem State.crash_tDelay : (s.crash).tDelay = s.tDelay := rfl
@[simp] theorem State.crash_tSound : (s.crash).tSound = s.tSound := rfl
@[simp] theorem State.crash_dt : (s.crash).dt = s.dt := rfl
@[simp] theorem State.crash_st : (s.crash).st = s.st := rfl
@[simp] theorem State.crash_fb : (s.crash).fb = s.fb := rfl
@[simp] theorem State.crash_keys : (s.crash).keys = s.keys := rfl
@[simp] theorem State.crash_released : (s.crash).released = s.released := rfl
@[simp] theorem State.crash_policy : (s.crash).policy = s.policy := rfl
@[simp] theorem State.crash_result : (s.crash).result = s.result := rfl
@[simp] theorem State.crash_draws : (s.crash).draws = s.draws := rfl
@[simp] theorem State.crash_hostQueue : (s.crash).hostQueue = s.hostQueue := rfl
@[simp] theorem State.crash_reg (j : Nibble) : (s.crash).reg j = s.reg j := rfl
@[simp] theorem State.crash_memRead (b : Address) : (s.crash).memRead b = s.memRead b := rfl
@[simp] theorem State.crash_key (j : Nibble) : (s.crash).key j = s.key j := rfl
@[simp] theorem State.crash_timer (t : TimerId) : (s.crash).timer t = s.timer t := by cases t <;> rfl

/-! ### memWrite -/

@[simp] theorem State.memWrite_regs (a : Address) (v : Byte) : (s.memWrite a v).regs = s.regs := rfl
@[simp] theorem State.memWrite_index (a : Address) (v : Byte) : (s.memWrite a v).index = s.index := rfl
@[simp] theorem State.memWrite_pc (a : Address) (v : Byte) : (s.memWrite a v).pc = s.pc := rfl
@[simp] theorem State.memWrite_stack (a : Address) (v : Byte) : (s.memWrite a v).stack = s.stack := rfl
@[simp] theorem State.memWrite_awaitKey (a : Address) (v : Byte) : (s.memWrite a v).awaitKey = s.awaitKey := rfl
@[simp] theorem State.memWrite_crashed (a : Address) (v : Byte) : (s.memWrite a v).crashed = s.crashed := rfl
@[simp] theorem State.memWrite_tInstr (a : Address) (v : Byte) : (s.memWrite a v).tInstr = s.tInstr := rfl
@[simp] theorem State.memWrite_tDelay (a : Address) (v : Byte) : (s.memWrite a v).tDelay = s.tDelay := rfl
@[simp] theorem State.memWrite_tSound (a : Address) (v : Byte) : (s.memWrite a v).tSound = s.tSound := rfl
@[simp] theorem State.memWrite_dt (a : Address) (v : Byte) : (s.memWrite a v).dt = s.dt := rfl
@[simp] theorem State.memWrite_st (a : Address) (v : Byte) : (s.memWrite a v).st = s.st := rfl
@[simp] theorem State.memWrite_fb (a : Address) (v : Byte) : (s.memWrite a v).fb = s.fb := rfl
@[simp] theorem State.memWrite_keys (a : Address) (v : Byte) : (s.memWrite a v).keys = s.keys := rfl
@[simp] theorem State.memWrite_released (a : Address) (v : Byte) : (s.memWrite a v).released = s.released := rfl
@[simp] theorem State.memWrite_policy (a : Address) (v : Byte) : (s.memWrite a v).policy = s.policy := rfl
@[simp] theorem State.memWrite_result (a : Address) (v : Byte) : (s.memWrite a v).result = s.result := rfl
@[simp] theorem State.memWrite_draws (a : Address) (v : Byte) : (s.memWrite a v).draws = s.draws := rfl
@[simp] theorem State.memWrite_hostQueue (a : Address) (v : Byte) : (s.memWrite a v).hostQueue = s.hostQueue := rfl
@[simp] theorem State.memWrite_reg (a : Address) (v : Byte) (j : Nibble) : (s.memWrite a v).reg j = s.reg j := rfl
@[simp] theorem State.memWrite_key (a : Address) (v : Byte) (j : Nibble) : (s.memWrite a v).key j = s.key j := rfl
@[simp] theorem State.memWrite_timer (a : Address) (v : Byte) (t : TimerId) : (s.memWrite a v).timer t = s.timer t := by cases t <;> rfl

/-! ### setDt -/

@[simp] theorem State.setDt_regs (v : Byte) : (s.setDt v).regs = s.regs := rfl
@[simp] theorem State.setDt_index (v : Byte) : (s.setDt v).index = s.index := rfl
@[simp] theorem State.setDt_pc (v : Byte) : (s.setDt v).pc = s.pc := rfl
@[simp] theorem State.setDt_stack (v : Byte) : (s.setDt v).stack = s.stack := rfl
@[simp] theorem State.setDt_awaitKey (v : Byte) : (s.setDt v).awaitKey = s.awaitKey := rfl
@[simp] theorem State.setDt_crashed (v : Byte) : (s.setDt v).crashed = s.crashed := rfl
@[simp] theorem State.setDt_mem (v : Byte) : (s.setDt v).mem = s.mem := rfl
@[simp] theorem State.setDt_tInstr (v : Byte) : (s.setDt v).tInstr = s.tInstr := rfl
@[simp] theorem State.setDt_tDelay (v : Byte) : (s.setDt v).tDelay = s.tDelay := rfl
@[simp] theorem State.setDt_tSound (v : Byte) : (s.setDt v).tSound = s.tSound := rfl
@[simp] theorem State.setDt_dt (v : Byte) : (s.setDt v).dt = v := rfl
@[simp] theorem State.setDt_st (v : Byte) : (s.setDt v).st = s.st := rfl
@[simp] theorem State.setDt_fb (v : Byte) : (s.setDt v).fb = s.fb := rfl
@[simp] theorem State.setDt_keys (v : Byte) : (s.setDt v).keys = s.keys := rfl
@[simp] theorem State.setDt_released (v : Byte) : (s.setDt v).released = s.released := rfl
@[simp] theorem State.setDt_policy (v : Byte) : (s.setDt v).policy = s.policy := rfl
@[simp] theorem State.setDt_result (v : Byte) : (s.setDt v).result = s.result := rfl
@[simp] theorem State.setDt_draws (v : Byte) : (s.setDt v).draws = s.draws := rfl
@[simp] theorem State.setDt_hostQueue (v : Byte) : (s.setDt v).hostQueue = s.hostQueue := rfl
@[simp] theorem State.setDt_reg (v : Byte) (j : Nibble) : (s.setDt v).reg j = s.reg j := rfl
@[simp] theorem State.setDt_memRead (v : Byte) (b : Address) : (s.setDt v).memRead b = s.memRead b := rfl
@[simp] theorem State.setDt_key (v : Byte) (j : Nibble) : (s.setDt v).key j = s.key j := rfl
@[simp] theorem State.setDt_timer (v : Byte) (t : TimerId) : (s.setDt v).timer t = s.timer t := by cases t <;> rfl

/-! ### setSt -/

@[simp] theorem State.setSt_regs (v : Byte) : (s.setSt v).regs = s.regs := rfl
@[simp] theorem State.setSt_index (v : Byte) : (s.setSt v).index = s.index := rfl
@[simp] theorem State.setSt_pc (v : Byte) : (s.setSt v).pc = s.pc := rfl
@[simp] theorem State.setSt_stack (v : Byte) : (s.setSt v).stack = s.stack := rfl
@[simp] theorem State.setSt_awaitKey (v : Byte) : (s.setSt v).awaitKey = s.awaitKey := rfl
@[simp] theorem State.setSt_crashed (v : Byte) : (s.setSt v).crashed = s.crashed := rfl
@[simp] theorem State.setSt_mem (v : Byte) : (s.setSt v).mem = s.mem := rfl
@[simp] theorem State.setSt_tInstr (v : Byte) : (s.setSt v).tInstr = s.tInstr := rfl
@[simp] theorem State.setSt_tDelay (v : Byte) : (s.setSt v).tDelay = s.tDelay := rfl
@[simp] theorem State.setSt_tSound (v : Byte) : (s.setSt v).tSound = s.tSound := rfl
@[simp] theorem State.setSt_dt (v : Byte) : (s.setSt v).dt = s.dt := rfl
@[simp] theorem State.setSt_st (v : Byte) : (s.setSt v).st = v := rfl
@[simp] theorem State.setSt_fb (v : Byte) : (s.setSt v).fb = s.fb := rfl
@[simp] theorem State.setSt_keys (v : Byte) : (s.setSt v).keys = s.keys := rfl
@[simp] theorem State.setSt_released (v : Byte) : (s.setSt v).released = s.released := rfl
@[simp] theorem State.setSt_policy (v : Byte) : (s.setSt v).policy = s.policy := rfl
@[simp] theorem State.setSt_result (v : Byte) : (s.setSt v).result = s.result := rfl
@[simp] theorem State.setSt_draws (v : Byte) : (s.setSt v).draws = s.draws := rfl
@[simp] theorem State.setSt_hostQueue (v : Byte) : (s.setSt v).hostQueue = s.hostQueue := rfl
@[simp] theorem State.setSt_reg (v : Byte) (j : Nibble) : (s.setSt v).reg j = s.reg j := rfl
@[simp] theorem State.setSt_memRead (v : Byte) (b : Address) : (s.setSt v).memRead b = s.memRead b := rfl
@[simp] theorem State.setSt_key (v : Byte) (j : Nibble) : (s.setSt v).key j = s.key j := rfl
@[simp] theorem State.setSt_timer (v : Byte) (t : TimerId) : (s.setSt v).timer t = s.timer t := by cases t <;> rfl

/-! ### setFb -/

@[simp] theorem State.setFb_regs (fb : Framebuffer) : (s.setFb fb).regs = s.regs := rfl
@[simp] theorem State.setFb_index (fb : Framebuffer) : (s.setFb fb).index = s.index := rfl
@[simp] theorem State.setFb_pc (fb : Framebuffer) : (s.setFb fb).pc = s.pc := rfl
@[simp] theorem State.setFb_stack (fb : Framebuffer) : (s.setFb fb).stack = s.stack := rfl
@[simp] theorem State.setFb_awaitKey (fb : Framebuffer) : (s.setFb fb).awaitKey = s.awaitKey := rfl
@[simp] theorem State.setFb_crashed (fb : Framebuffer) : (s.setFb fb).crashed = s.crashed := rfl
@[simp] theorem State.setFb_mem (fb : Framebuffer) : (s.setFb fb).mem = s.mem := rfl
@[simp] theorem State.setFb_tInstr (fb : Framebuffer) : (s.setFb fb).tInstr = s.tInstr := rfl
@[simp] theorem State.setFb_tDelay (fb : Framebuffer) : (s.setFb fb).tDelay = s.tDelay := rfl
@[simp] theorem State.setFb_tSound (fb : Framebuffer) : (s.setFb fb).tSound = s.tSound := rfl
@[simp] theorem State.setFb_dt (fb : Framebuffer) : (s.setFb fb).dt = s.dt := rfl
@[simp] theorem State.setFb_st (fb : Framebuffer) : (s.setFb fb).st = s.st := rfl
@[simp] theorem State.setFb_fb (fb : Framebuffer) : (s.setFb fb).fb = fb := rfl
@[simp] theorem State.setFb_keys (fb : Framebuffer) : (s.setFb fb).keys = s.keys := rfl
@[simp] theorem State.setFb_released (fb : Framebuffer) : (s.setFb fb).released = s.released := rfl
@[simp] theorem State.setFb_policy (fb : Framebuffer) : (s.setFb fb).policy = s.policy := rfl
@[simp] theorem State.setFb_result (fb : Framebuffer) : (s.setFb fb).result = s.result := rfl
@[simp] theorem State.setFb_draws (fb : Framebuffer) : (s.setFb fb).draws = s.draws := rfl
@[simp] theorem State.setFb_hostQueue (fb : Framebuffer) : (s.setFb fb).hostQueue = s.hostQueue := rfl
@[simp] theorem State.setFb_reg (fb : Framebuffer) (j : Nibble) : (s.setFb fb).reg j = s.reg j := rfl
@[simp] theorem State.setFb_memRead (fb : Framebuffer) (b : Address) : (s.setFb fb).memRead b = s.memRead b := rfl
@[simp] theorem State.setFb_key (fb : Framebuffer) (j : Nibble) : (s.setFb fb).key j = s.key j := rfl
@[simp] theorem State.setFb_timer (fb : Framebuffer) (t : TimerId) : (s.setFb fb).timer t = s.timer t := by cases t <;> rfl

/-! ### setKey -/

@[simp] theorem State.setKey_regs (k : Nibble) (d : Bool) : (s.setKey k d).regs = s.regs := rfl
@[simp] theorem State.setKey_index (k : Nibble) (d : Bool) : (s.setKey k d).index = s.index := rfl
@[simp] theorem State.setKey_pc (k : Nibble) (d : Bool) : (s.setKey k d).pc = s.pc := rfl
@[simp] theorem State.setKey_stack (k : Nibble) (d : Bool) : (s.setKey k d).stack = s.stack := rfl
@[simp] theorem State.setKey_awaitKey (k : Nibble) (d : Bool) : (s.setKey k d).awaitKey = s.awaitKey := rfl
@[simp] theorem State.setKey_crashed (k : Nibble) (d : Bool) : (s.setKey k d).crashed = s.crashed := rfl
@[simp] theorem State.setKey_mem (k : Nibble) (d : Bool) : (s.setKey k d).mem = s.mem := rfl
@[simp] theorem State.setKey_tInstr (k : Nibble) (d : Bool) : (s.setKey k d).tInstr = s.tInstr := rfl
@[simp] theorem State.setKey_tDelay (k : Nibble) (d : Bool) : (s.setKey k d).tDelay = s.tDelay := rfl
@[simp] theorem State.setKey_tSound (k : Nibble) (d : Bool) : (s.setKey k d).tSound = s.tSound := rfl
@[simp] theorem State.setKey_dt (k : Nibble) (d : Bool) : (s.setKey k d).dt = s.dt := rfl
@[simp] theorem State.setKey_st (k : Nibble) (d : Bool) : (s.setKey k d).st = s.st := rfl
@[simp] theorem State.setKey_fb (k : Nibble) (d : Bool) : (s.setKey k d).fb = s.fb := rfl
@[simp] theorem State.setKey_released (k : Nibble) (d : Bool) : (s.setKey k d).released = s.released := rfl
@[simp] theorem State.setKey_policy (k : Nibble) (d : Bool) : (s.setKey k d).policy = s.policy := rfl
@[simp] theorem State.setKey_result (k : Nibble) (d : Bool) : (s.setKey k d).result = s.result := rfl
@[simp] theorem State.setKey_draws (k : Nibble) (d : Bool) : (s.setKey k d).draws = s.draws := rfl
@[simp] theorem State.setKey_hostQueue (k : Nibble) (d : Bool) : (s.setKey k d).hostQueue = s.hostQueue := rfl
@[simp] theorem State.setKey_reg (k : Nibble) (d : Bool) (j : Nibble) : (s.setKey k d).reg j = s.reg j := rfl
@[simp] theorem State.setKey_memRead (k : Nibble) (d : Bool) (b : Address) : (s.setKey k d).memRead b = s.memRead b := rfl
@[simp] theorem State.setKey_timer (k : Nibble) (d : Bool) (t : TimerId) : (s.setKey k d).timer t = s.timer t := by cases t <;> rfl

/-! ### setReleased -/

@[simp] theorem State.setReleased_regs (k : Option Nibble) : (s.setReleased k).regs = s.regs := rfl
@[simp] theorem State.setReleased_index (k : Option Nibble) : (s.setReleased k).index = s.index := rfl
@[simp] theorem State.setReleased_pc (k : Option Nibble) : (s.setReleased k).pc = s.pc := rfl
@[simp] theorem State.setReleased_stack (k : Option Nibble) : (s.setReleased k).stack = s.stack := rfl
@[simp] theorem State.setReleased_awaitKey (k : Option Nibble) : (s.setReleased k).awaitKey = s.awaitKey := rfl
@[simp] theorem State.setReleased_crashed (k : Option Nibble) : (s.setReleased k).crashed = s.crashed := rfl
@[simp] theorem State.setReleased_mem (k : Option Nibble) : (s.setReleased k).mem = s.mem := rfl
@[simp] theorem State.setReleased_tInstr (k : Option Nibble) : (s.setReleased k).tInstr = s.tInstr := rfl
@[simp] theorem State.setReleased_tDelay (k : Option Nibble) : (s.setReleased k).tDelay = s.tDelay := rfl
@[simp] theorem State.setReleased_tSound (k : Option Nibble) : (s.setReleased k).tSound = s.tSound := rfl
@[simp] theorem State.setReleased_dt (k : Option Nibble) : (s.setReleased k).dt = s.dt := rfl
@[simp] theorem State.setReleased_st (k : Option Nibble) : (s.setReleased k).st = s.st := rfl
@[simp] theorem State.setReleased_fb (k : Option Nibble) : (s.setReleased k).fb = s.fb := rfl
@[simp] theorem State.setReleased_keys (k : Option Nibble) : (s.setReleased k).keys = s.keys := rfl
@[simp] theorem State.setReleased_released (k : Option Nibble) : (s.setReleased k).released = k := rfl
@[simp] theorem State.setReleased_policy (k : Option Nibble) : (s.setReleased k).policy = s.policy := rfl
@[simp] theorem State.setReleased_result (k : Option Nibble) : (s.setReleased k).result = s.result := rfl
@[simp] theorem State.setReleased_draws (k : Option Nibble) : (s.setReleased k).draws = s.draws := rfl
@[simp] theorem State.setReleased_hostQueue (k : Option Nibble) : (s.setReleased k).hostQueue = s.hostQueue := rfl
@[simp] theorem State.setReleased_reg (k : Option Nibble) (j : Nibble) : (s.setReleased k).reg j = s.reg j := rfl
@[simp] theorem State.setReleased_memRead (k : Option Nibble) (b : Address) : (s.setReleased k).memRead b = s.memRead b := rfl
@[simp] theorem State.setReleased_key (k : Option Nibble) (j : Nibble) : (s.setReleased k).key j = s.key j := rfl
@[simp] theorem State.setReleased_timer (k : Option Nibble) (t : TimerId) : (s.setReleased k).timer t = s.timer t := by cases t <;> rfl

/-! ### setResult -/

@[simp] theorem State.setResult_regs (r : CycleResult) : (s.setResult r).regs = s.regs := rfl
@[simp] theorem State.setResult_index (r : CycleResult) : (s.setResult r).index = s.index := rfl
@[simp] theorem State.setResult_pc (r : CycleResult) : (s.setResult r).pc = s.pc := rfl
@[simp] theorem State.setResult_stack (r : CycleResult) : (s.setResult r).stack = s.stack := rfl
@[simp] theorem State.setResult_awaitKey (r : CycleResult) : (s.setResult r).awaitKey = s.awaitKey := rfl
@[simp] theorem State.setResult_crashed (r : CycleResult) : (s.setResult r).crashed = s.crashed := rfl
@[simp] theorem State.setResult_mem (r : CycleResult) : (s.setResult r).mem = s.mem := rfl
@[simp] theorem State.setResult_tInstr (r : CycleResult) : (s.setResult r).tInstr = s.tInstr := rfl
@[simp] theorem State.setResult_tDelay (r : CycleResult) : (s.setResult r).tDelay = s.tDelay := rfl
@[simp] theorem State.setResult_tSound (r : CycleResult) : (s.setResult r).tSound = s.tSound := rfl
@[simp] theorem State.setResult_dt (r : CycleResult) : (s.setResult r).dt = s.dt := rfl
@[simp] theorem State.setResult_st (r : CycleResult) : (s.setResult r).st = s.st := rfl
@[simp] theorem State.setResult_fb (r : CycleResult) : (s.setResult r).fb = s.fb := rfl
@[simp] theorem State.setResult_keys (r : CycleResult) : (s.setResult r).keys = s.keys := rfl
@[simp] theorem State.setResult_released (r : CycleResult) : (s.setResult r).released = s.released := rfl
@[simp] theorem State.setResult_policy (r : CycleResult) : (s.setResult r).policy = s.policy := rfl
@[simp] theorem State.setResult_result (r : CycleResult) : (s.setResult r).result = r := rfl
@[simp] theorem State.setResult_draws (r : CycleResult) : (s.setResult r).draws = s.draws := rfl
@[simp] theorem State.setResult_hostQueue (r : CycleResult) : (s.setResult r).hostQueue = s.hostQueue := rfl
@[simp] theorem State.setResult_reg (r : CycleResult) (j : Nibble) : (s.setResult r).reg j = s.reg j := rfl
@[simp] theorem State.setResult_memRead (r : CycleResult) (b : Address) : (s.setResult r).memRead b = s.memRead b := rfl
@[simp] theorem State.setResult_key (r : CycleResult) (j : Nibble) : (s.setResult r).key j = s.key j := rfl
@[simp] theorem State.setResult_timer (r : CycleResult) (t : TimerId) : (s.setResult r).timer t = s.timer t := by cases t <;> rfl

/-! ### setDraws -/

@[simp] theorem State.setDraws_regs (n : Nat) : (s.setDraws n).regs = s.regs := rfl
@[simp] theorem State.setDraws_index (n : Nat) : (s.setDraws n).index = s.index := rfl
@[simp] theorem State.setDraws_pc (n : Nat) : (s.setDraws n).pc = s.pc := rfl
@[simp] theorem State.setDraws_stack (n : Nat) : (s.setDraws n).stack = s.stack := rfl
@[simp] theorem State.setDraws_awaitKey (n : Nat) : (s.setDraws n).awaitKey = s.awaitKey := rfl
@[simp] theorem State.setDraws_crashed (n : Nat) : (s.setDraws n).crashed = s.crashed := rfl
@[simp] theorem State.setDraws_mem (n : Nat) : (s.setDraws n).mem = s.mem := rfl
@[simp] theorem State.setDraws_tInstr (n : Nat) : (s.setDraws n).tInstr = s.tInstr := rfl
@[simp] theorem State.setDraws_tDelay (n : Nat) : (s.setDraws n).tDelay = s.tDelay := rfl
@[simp] theorem State.setDraws_tSound (n : Nat) : (s.setDraws n).tSound = s.tSound := rfl
@[simp] theorem State.setDraws_dt (n : Nat) : (s.setDraws n).dt = s.dt := rfl
@[simp] theorem State.setDraws_st (n : Nat) : (s.setDraws n).st = s.st := rfl
@[simp] theorem State.setDraws_fb (n : Nat) : (s.setDraws n).fb = s.fb := rfl
@[simp] theorem State.setDraws_keys (n : Nat) : (s.setDraws n).keys = s.keys := rfl
@[simp] theorem State.setDraws_released (n : Nat) : (s.setDraws n).released = s.released := rfl
@[simp] theorem State.setDraws_policy (n : Nat) : (s.setDraws n).policy = s.policy := rfl
@[simp] theorem State.setDraws_result (n : Nat) : (s.setDraws n).result = s.result := rfl
@[simp] theorem State.setDraws_draws (n : Nat) : (s.setDraws n).draws = n := rfl
@[simp] theorem State.setDraws_hostQueue (n : Nat) : (s.setDraws n).hostQueue = s.hostQueue := rfl
@[simp] theorem State.setDraws_reg (n : Nat) (j : Nibble) : (s.setDraws n).reg j = s.reg j := rfl
@[simp] theorem State.setDraws_memRead (n : Nat) (b : Address) : (s.setDraws n).memRead b = s.memRead b := rfl
@[simp] theorem State.setDraws_key (n : Nat) (j : Nibble) : (s.setDraws n).key j = s.key j := rfl
@[simp] theorem State.setDraws_timer (n : Nat) (t : TimerId) : (s.setDraws n).timer t = s.timer t := by cases t <;> rfl

/-! ### setQueue -/

@[simp] theorem State.setQueue_regs (q : List HostCall) : (s.setQueue q).regs = s.regs := rfl
@[simp] theorem State.setQueue_index (q : List HostCall) : (s.setQueue q).index = s.index := rfl
@[simp] theorem State.setQueue_pc (q : List HostCall) : (s.setQueue q).pc = s.pc := rfl
@[simp] theorem State.setQueue_stack (q : List HostCall) : (s.setQueue q).stack = s.stack := rfl
@[simp] theorem State.setQueue_awaitKey (q : List HostCall) : (s.setQueue q).awaitKey = s.awaitKey := rfl
@[simp] theorem State.setQueue_crashed (q : List HostCall) : (s.setQueue q).crashed = s.crashed := rfl
@[simp] theorem State.setQueue_mem (q : List HostCall) : (s.setQueue q).mem = s.mem := rfl
@[simp] theorem State.setQueue_tInstr (q : List HostCall) : (s.setQueue q).tInstr = s.tInstr := rfl
@[simp] theorem State.setQueue_tDelay (q : List HostCall) : (s.setQueue q).tDelay = s.tDelay := rfl
@[simp] theorem State.setQueue_tSound (q : List HostCall) : (s.setQueue q).tSound = s.tSound := rfl
@[simp] theorem State.setQueue_dt (q : List HostCall) : (s.setQueue q).dt = s.dt := rfl
@[simp] theorem State.setQueue_st (q : List HostCall) : (s.setQueue q).st = s.st := rfl
@[simp] theorem State.setQueue_fb (q : List HostCall) : (s.setQueue q).fb = s.fb := rfl
@[simp] theorem State.setQueue_keys (q : List HostCall) : (s.setQueue q).keys = s.keys := rfl
@[simp] theorem State.setQueue_released (q : List HostCall) : (s.setQueue q).released = s.released := rfl
@[simp] theorem State.setQueue_policy (q : List HostCall) : (s.setQueue q).policy = s.policy := rfl
@[simp] theorem State.setQueue_result (q : List HostCall) : (s.setQueue q).result = s.result := rfl
@[simp] theorem State.setQueue_draws (q : List HostCall) : (s.setQueue q).draws = s.draws := rfl
@[simp] theorem State.setQueue_hostQueue (q : List HostCall) : (s.setQueue q).hostQueue = q := rfl
@[simp] theorem State.setQueue_reg (q : List HostCall) (j : Nibble) : (s.setQueue q).reg j = s.reg j := rfl
@[simp] theorem State.setQueue_memRead (q : List HostCall) (b : Address) : (s.setQueue q).memRead b = s.memRead b := rfl
@[simp] theorem State.setQueue_key (q : List HostCall) (j : Nibble) : (s.setQueue q).key j = s.key j := rfl
@[simp] theorem State.setQueue_timer (q : List HostCall) (t : TimerId) : (s.setQueue q).timer t = s.timer t := by cases t <;> rfl

/-! ### setTimer -/

@[simp] theorem State.setTimer_regs (t : TimerId) (v : Timer) : (s.setTimer t v).regs = s.regs := by cases t <;> rfl
@[simp] theorem State.setTimer_index (t : TimerId) (v : Timer) : (s.setTimer t v).index = s.index := by cases t <;> rfl
@[simp] theorem State.setTimer_pc (t : TimerId) (v : Timer) : (s.setTimer t v).pc = s.pc := by cases t <;> rfl
@[simp] theorem State.setTimer_stack (t : TimerId) (v : Timer) : (s.setTimer t v).stack = s.stack := by cases t <;> rfl
@[simp] theorem State.setTimer_awaitKey (t : TimerId) (v : Timer) : (s.setTimer t v).awaitKey = s.awaitKey := by cases t <;> rfl
@[simp] theorem State.setTimer_crashed (t : TimerId) (v : Timer) : (s.setTimer t v).crashed = s.crashed := by cases t <;> rfl
@[simp] theorem State.setTimer_mem (t : TimerId) (v : Timer) : (s.setTimer t v).mem = s.mem := by cases t <;> rfl
@[simp] theorem State.setTimer_dt (t : TimerId) (v : Timer) : (s.setTimer t v).dt = s.dt := by cases t <;> rfl
@[simp] theorem State.setTimer_st (t : TimerId) (v : Timer) : (s.setTimer t v).st = s.st := by cases t <;> rfl
@[simp] theorem State.setTimer_fb (t : TimerId) (v : Timer) : (s.setTimer t v).fb = s.fb := by cases t <;> rfl
@[simp] theorem State.setTimer_keys (t : TimerId) (v : Timer) : (s.setTimer t v).keys = s.keys := by cases t <;> rfl
@[simp] theorem State.setTimer_released (t : TimerId) (v : Timer) : (s.setTimer t v).released = s.released := by cases t <;> rfl
@[simp] theorem State.setTimer_policy (t : TimerId) (v : Timer) : (s.setTimer t v).policy = s.policy := by cases t <;> rfl
@[simp] theorem State.setTimer_result (t : TimerId) (v : Timer) : (s.setTimer t v).result = s.result := by cases t <;> rfl
@[simp] theorem State.setTimer_draws (t : TimerId) (v : Timer) : (s.setTimer t v).draws = s.draws := by cases t <;> rfl
@[simp] theorem State.setTimer_hostQueue (t : TimerId) (v : Timer) : (s.setTimer t v).hostQueue = s.hostQueue := by cases t <;> rfl
@[simp] theorem State.setTimer_reg (t : TimerId) (v : Timer) (j : Nibble) : (s.setTimer t v).reg j = s.reg j := by cases t <;> rfl
@[simp] theorem State.setTimer_memRead (t : TimerId) (v : Timer) (b : Address) : (s.setTimer t v).memRead b = s.memRead b := by cases t <;> rfl
@[simp] theorem State.setTimer_key (t : TimerId) (v : Timer) (j : Nibble) : (s.setTimer t v).key j = s.key j := by cases t <;> rfl

theorem State.timer_setTimer (t u : TimerId) (v : Timer) :
    (s.setTimer t v).timer u = if u = t then v else s.timer u := by cases t <;> cases u <;> rfl

@[simp] theorem State.setTimer_instr_tInstr (v : Timer) : (s.setTimer .instr v).tInstr = v := rfl
@[simp] theorem State.setTimer_instr_tDelay (v : Timer) : (s.setTimer .instr v).tDelay = s.tDelay := rfl
@[simp] theorem State.setTimer_instr_tSound (v : Timer) : (s.setTimer .instr v).tSound = s.tSound := rfl
@[simp] theorem State.setTimer_delay_tInstr (v : Timer) : (s.setTimer .delay v).tInstr = s.tInstr := rfl
@[simp] theorem State.setTimer_delay_tDelay (v : Timer) : (s.setTimer .delay v).tDelay = v := rfl
@[simp] theorem State.setTimer_delay_tSound (v : Timer) : (s.setTimer .delay v).tSound = s.tSound := rfl
@[simp] theorem State.setTimer_sound_tInstr (v : Timer) : (s.setTimer .sound v).tInstr = s.tInstr := rfl
@[simp] theorem State.setTimer_sound_tDelay (v : Timer) : (s.setTimer .sound v).tDelay = s.tDelay := rfl
@[simp] theorem State.setTimer_sound_tSound (v : Timer) : (s.setTimer .sound v).tSound = v := rfl

end Sys2Proof.Machine
end

