-- ==== Sys2Proof/Laws/Memory.lean ====
section
/-! SUPPORT. The laws of memory: reading after a write, the canonical form, and that it makes equal memories equal
data. -/

namespace Sys2Proof.Machine

@[simp] theorem Memory.get_cons_self (a : Nat) (v : Byte) (m : Memory) :
    (Memory.cons a v m).get a = if v = Memory.unlisted then m.get a else v := by
  unfold Memory.cons; split <;> simp [Memory.get]

theorem Memory.get_cons_ne {a b : Nat} (v : Byte) (m : Memory) (h : a ≠ b) :
    (Memory.cons a v m).get b = m.get b := by
  unfold Memory.cons; split <;> simp [Memory.get, h]

/-- Below every listed address nothing is listed. -/
theorem Memory.get_of_wfFrom {m : Memory} {lo a : Nat} (h : Memory.wfFrom lo m = true) (ha : a < lo) :
    m.get a = Memory.unlisted := by
  induction m generalizing lo with
  | nil => rfl
  | cons p rest ih =>
    obtain ⟨k, v⟩ := p
    simp only [Memory.wfFrom, Bool.and_eq_true, decide_eq_true_eq] at h
    rw [Memory.get, if_neg (by omega)]
    exact ih h.2 (by omega)

theorem Memory.wfFrom_mono {m : Memory} {lo lo' : Nat} (h : Memory.wfFrom lo m = true) (hl : lo' ≤ lo) :
    Memory.wfFrom lo' m = true := by
  cases m with
  | nil => rfl
  | cons p rest =>
    simp only [Memory.wfFrom, Bool.and_eq_true, decide_eq_true_eq] at h ⊢
    exact ⟨⟨⟨by omega, h.1.1.2⟩, h.1.2⟩, h.2⟩

theorem Memory.wfFrom_cons {a lo : Nat} {v : Byte} {m : Memory} (h : Memory.wfFrom (a + 1) m = true)
    (ha : a < Config.memSize) (hl : lo ≤ a) : Memory.wfFrom lo (Memory.cons a v m) = true := by
  unfold Memory.cons
  split
  · exact Memory.wfFrom_mono h (by omega)
  · rename_i hv
    simp [Memory.wfFrom, ha, hl, hv, h]

/-- A write keeps the canonical form, from any lower bound the address meets. -/
theorem Memory.wfFrom_put {m : Memory} {lo a : Nat} {v : Byte} (h : Memory.wfFrom lo m = true)
    (ha : a < Config.memSize) (hl : lo ≤ a) : Memory.wfFrom lo (m.put a v) = true := by
  induction m generalizing lo with
  | nil => exact Memory.wfFrom_cons rfl ha hl
  | cons p rest ih =>
    obtain ⟨k, w⟩ := p
    have hk := h
    simp only [Memory.wfFrom, Bool.and_eq_true, decide_eq_true_eq] at hk
    unfold Memory.put
    split
    · refine Memory.wfFrom_cons ?_ ha hl
      simp only [Memory.wfFrom, Bool.and_eq_true, decide_eq_true_eq]
      exact ⟨⟨⟨by omega, hk.1.1.2⟩, hk.1.2⟩, hk.2⟩
    · split
      · subst a
        exact Memory.wfFrom_cons hk.2 ha hl
      · simp only [Memory.wfFrom, Bool.and_eq_true, decide_eq_true_eq]
        exact ⟨hk.1, ih hk.2 (by omega)⟩

/-- A write at an address of the machine keeps the canonical form. -/
theorem Memory.wf_put {m : Memory} {a : Nat} {v : Byte} (h : m.wf = true) (ha : a < Config.memSize) :
    (m.put a v).wf = true :=
  Memory.wfFrom_put h ha (Nat.zero_le a)

/-- Reading the address just written. -/
theorem Memory.get_put_self {m : Memory} {lo a : Nat} (v : Byte) (h : Memory.wfFrom lo m = true) :
    (m.put a v).get a = v := by
  induction m generalizing lo with
  | nil => by_cases hv : v = Memory.unlisted <;> simp [Memory.put, hv, Memory.get]
  | cons p rest ih =>
    obtain ⟨k, w⟩ := p
    have hk := h
    simp only [Memory.wfFrom, Bool.and_eq_true, decide_eq_true_eq] at hk
    unfold Memory.put
    split
    · rename_i hak
      have hg : Memory.get ((k, w) :: rest) a = Memory.unlisted :=
        Memory.get_of_wfFrom (lo := k) (by simp only [Memory.wfFrom, Bool.and_eq_true, decide_eq_true_eq]; exact ⟨⟨⟨le_refl k, hk.1.1.2⟩, hk.1.2⟩, hk.2⟩) hak
      by_cases hv : v = Memory.unlisted <;> simp [hv, hg]
    · split
      · subst a
        have hg : Memory.get rest k = Memory.unlisted := Memory.get_of_wfFrom hk.2 (Nat.lt_succ_self k)
        by_cases hv : v = Memory.unlisted <;> simp [hv, hg]
      · rw [Memory.get, if_neg (by omega)]
        exact ih hk.2

/-- Reading any other address after a write. -/
theorem Memory.get_put_ne (m : Memory) {a b : Nat} (v : Byte) (h : b ≠ a) : (m.put a v).get b = m.get b := by
  induction m with
  | nil => exact Memory.get_cons_ne v [] h.symm
  | cons p rest ih =>
    obtain ⟨k, w⟩ := p
    unfold Memory.put
    split
    · exact Memory.get_cons_ne v _ h.symm
    · split
      · subst a
        rw [Memory.get_cons_ne v _ h.symm, Memory.get, if_neg h.symm]
      · simp only [Memory.get, ih]

/-- In canonical form the first listed address is the least one that does not read as an unlisted one. -/
theorem Memory.eq_of_get_eq {m m' : Memory} {lo : Nat} (h : Memory.wfFrom lo m = true)
    (h' : Memory.wfFrom lo m' = true) (hg : ∀ a, a < Config.memSize → m.get a = m'.get a) : m = m' := by
  induction m generalizing lo m' with
  | nil =>
    cases m' with
    | nil => rfl
    | cons p rest =>
      obtain ⟨k, v⟩ := p
      simp only [Memory.wfFrom, Bool.and_eq_true, decide_eq_true_eq, bne_iff_ne] at h'
      have := hg k h'.1.1.2
      simp only [Memory.get, if_true] at this
      exact absurd this.symm h'.1.2
  | cons p rest ih =>
    obtain ⟨k, v⟩ := p
    cases m' with
    | nil =>
      simp only [Memory.wfFrom, Bool.and_eq_true, decide_eq_true_eq, bne_iff_ne] at h
      have := hg k h.1.1.2
      simp only [Memory.get, if_true] at this
      exact absurd this h.1.2
    | cons p' rest' =>
      obtain ⟨k', v'⟩ := p'
      simp only [Memory.wfFrom, Bool.and_eq_true, decide_eq_true_eq, bne_iff_ne] at h h'
      have hkk : k = k' := by
        rcases Nat.lt_trichotomy k k' with hlt | heq | hlt
        · have := hg k h.1.1.2
          rw [Memory.get, if_pos rfl, Memory.get, if_neg (by omega), Memory.get_of_wfFrom h'.2 (by omega)] at this
          exact absurd this h.1.2
        · exact heq
        · have := hg k' h'.1.1.2
          rw [Memory.get, if_neg (by omega), Memory.get_of_wfFrom h.2 (by omega), Memory.get, if_pos rfl] at this
          exact absurd this.symm h'.1.2
      subst hkk
      have hv : v = v' := by
        have := hg k h.1.1.2
        simpa [Memory.get] using this
      subst hv
      refine congrArg _ (ih h.2 h'.2 fun a ha => ?_)
      by_cases hak : k = a
      · subst hak
        rw [Memory.get_of_wfFrom h.2 (Nat.lt_succ_self k), Memory.get_of_wfFrom h'.2 (Nat.lt_succ_self k)]
      · have := hg a ha
        simpa [Memory.get, hak] using this

/-- Reading the byte just written (R53), in a state whose memory is canonical. -/
theorem State.memRead_memWrite_self {s : State} (h : s.mem.wf = true) (a : Address) (v : Byte) :
    (s.memWrite a v).memRead a = v :=
  Memory.get_put_self v h

/-- Reading any other byte after a write (R53). -/
theorem State.memRead_memWrite_ne (s : State) {a b : Address} (v : Byte) (h : b ≠ a) :
    (s.memWrite a v).memRead b = s.memRead b :=
  Memory.get_put_ne s.mem v fun e => h (BitVec.eq_of_toNat_eq e)

/-- A write keeps memory canonical. -/
theorem State.wf_memWrite {s : State} (h : s.mem.wf = true) (a : Address) (v : Byte) :
    (s.memWrite a v).mem.wf = true :=
  Memory.wf_put h a.isLt

end Sys2Proof.Machine
end

