-- ==== Sys2Proof/Laws/Ops.lean ====
section
/-! SUPPORT. The laws of the shared operations: ring addition, registers, the flag write, block transfers, the call
stack, raising a fault and completing an instruction. -/

namespace Sys2Proof.Machine

/-! ### Bounded values and ring addition -/

/-- Ring addition is the integer sum modulo 4096 (R104). -/
theorem addrAdd_toNat_int (a : Address) (k : Int) : ((addrAdd a k).toNat : Int) = (a.toNat + k) % 4096 := by
  rw [addrAdd, BitVec.toNat_ofInt, Int.toNat_of_nonneg (Int.emod_nonneg _ (by decide))]
  rfl

/-- Ring addition of an unsigned offset (R104). -/
theorem addrAdd_toNat (a : Address) (n : Nat) : (addrAdd a n).toNat = (a.toNat + n) % 4096 := by
  have h := addrAdd_toNat_int a n
  omega

@[simp] theorem addrAdd_zero (a : Address) : addrAdd a 0 = a := by
  have h := addrAdd_toNat a 0
  have := a.isLt
  exact BitVec.eq_of_toNat_eq (by simpa [Nat.mod_eq_of_lt this] using h)

/-- Offsets below the memory's size reach different addresses. -/
theorem addrAdd_inj {a : Address} {m n : Nat} (hm : m < 4096) (hn : n < 4096) (h : addrAdd a m = addrAdd a n) :
    m = n := by
  have h' := congrArg BitVec.toNat h
  have := a.isLt
  rw [addrAdd_toNat, addrAdd_toNat] at h'
  omega

theorem addrAdd_ne {a : Address} {m n : Nat} (hm : m < 4096) (hn : n < 4096) (h : m ≠ n) :
    addrAdd a m ≠ addrAdd a n := fun e => h (addrAdd_inj hm hn e)

theorem nibbleChecked_ok {raw : Nat} (h : raw ≤ 15) : nibbleChecked raw = .ok (BitVec.ofNat 4 raw) := if_pos h

theorem nibbleChecked_error {raw : Nat} (h : ¬ raw ≤ 15) : nibbleChecked raw = .error (.nibbleOutOfRange raw) :=
  if_neg h

/-- What `nib_of_reg` can answer: a nibble, or `NibbleOutOfRange` under the `fault` policy (R106). -/
theorem nibOfReg_cases (p : NibblePolicy) (v : Byte) :
    (∃ k, nibOfReg p v = .ok k ∧ k.toNat = v.toNat % 16 ∧ (p = .wrap ∨ v.toNat ≤ 15)) ∨
      (nibOfReg p v = .error (.nibbleOutOfRange v.toNat) ∧ p = .fault ∧ 15 < v.toNat) := by
  cases p with
  | fault =>
    by_cases h : v.toNat ≤ 15
    · exact .inl ⟨_, nibbleChecked_ok h, by simp, .inr h⟩
    · exact .inr ⟨nibbleChecked_error h, rfl, by omega⟩
  | wrap => exact .inl ⟨_, rfl, by simp [nibbleWrap], .inl rfl⟩

/-! ### Registers -/

theorem State.reg_setReg (s : State) (i j : Nibble) (v : Byte) :
    (s.setReg i v).reg j = if j = i then v else s.reg j := by
  unfold State.reg State.setReg
  rw [Vector.getElem_set]
  by_cases h : j = i
  · simp [h]
  · rw [if_neg h, if_neg (fun e => h (BitVec.eq_of_toNat_eq e.symm))]

@[simp] theorem State.reg_setReg_self (s : State) (i : Nibble) (v : Byte) : (s.setReg i v).reg i = v := by
  rw [State.reg_setReg, if_pos rfl]

theorem State.reg_setReg_ne (s : State) {i j : Nibble} (v : Byte) (h : j ≠ i) : (s.setReg i v).reg j = s.reg j := by
  rw [State.reg_setReg, if_neg h]

/-- The flag write is last (R160). -/
theorem State.reg_setRegFlag (s : State) (x j : Nibble) (r f : Byte) :
    (s.setRegFlag x r f).reg j = if j = Config.flagReg then f else if j = x then r else s.reg j := by
  rw [State.setRegFlag, State.reg_setReg, State.reg_setReg]

theorem State.key_setKey (s : State) (i j : Nibble) (d : Bool) :
    (s.setKey i d).key j = if j = i then d else s.key j := by
  unfold State.key State.setKey
  rw [Vector.getElem_set]
  by_cases h : j = i
  · simp [h]
  · rw [if_neg h, if_neg (fun e => h (BitVec.eq_of_toNat_eq e.symm))]

/-- Two register files that read the same are the same data. -/
theorem State.regs_ext {s t : State} (h : ∀ i, t.reg i = s.reg i) : t.regs = s.regs := by
  refine Vector.ext fun i hi => ?_
  have := h (BitVec.ofNat 4 i)
  have e : (BitVec.ofNat 4 i).toNat = i := by simp; omega
  simpa only [State.reg, e] using this

/-! ### Completing and raising -/

@[simp] theorem answerOk_eq (s : State) : answerOk s = .next (s.setResult .ok) := rfl

@[simp] theorem goTo_eq (a : Address) (s : State) : goTo a s = .next ((s.setPc a).setResult .ok) := rfl

@[simp] theorem stepNext_eq (s : State) : stepNext s = .next ((s.setPc (addrAdd s.pc 2)).setResult .ok) := rfl

@[simp] theorem stepSkip_eq (s : State) : stepSkip s = .next ((s.setPc (addrAdd s.pc 4)).setResult .ok) := rfl

/-- A skip answers a next state that differs in `pc` and the result only (R150). -/
theorem skipIf_eq (c : Bool) (s : State) :
    skipIf c s = .next ((s.setPc (addrAdd s.pc (if c then 4 else 2))).setResult .ok) := by
  cases c <;> rfl

@[simp] theorem raise_eq (f : Fault) (s : State) : raise f s = .next (s.crash.setResult (.err f)) := rfl

/-! ### The call stack -/

theorem push_ok {s : State} (h : s.stack.length < Config.stackUsable) (a : Address) :
    push a s = .ok (s.setStack (s.stack ++ [a])) := if_pos h

theorem push_error {s : State} (h : Config.stackUsable ≤ s.stack.length) (a : Address) :
    push a s = .error .stackOverflow := if_neg (Nat.not_lt.mpr h)

theorem pop_error {s : State} (h : s.stack = []) : pop s = .error .stackUnderflow := by simp [pop, h]

theorem pop_ok {s : State} {a : Address} {l : List Address} (h : s.stack = l ++ [a]) :
    pop s = .ok (a, s.setStack l) := by simp [pop, h]

/-- What `pop` can answer (R109). -/
theorem pop_cases (s : State) :
    (s.stack = [] ∧ pop s = .error .stackUnderflow) ∨
      (∃ l a, s.stack = l ++ [a] ∧ pop s = .ok (a, s.setStack l)) := by
  rcases List.eq_nil_or_concat s.stack with h | ⟨l, a, h⟩
  · exact .inl ⟨h, pop_error h⟩
  · exact .inr ⟨l, a, by simpa using h, pop_ok (by simpa using h)⟩

/-! ### Block transfers -/

/-- Storing registers changes memory only. -/
theorem State.storeFirst_fields (s : State) (n : Nat) : ∃ m, s.storeFirst n = { s with mem := m } := by
  induction n with
  | zero => exact ⟨s.mem, rfl⟩
  | succ n ih => obtain ⟨m, h⟩ := ih; exact ⟨_, by rw [State.storeFirst, h]; rfl⟩

/-- Storing registers keeps memory canonical. -/
theorem State.wf_storeFirst {s : State} (h : s.mem.wf = true) (n : Nat) : (s.storeFirst n).mem.wf = true := by
  induction n with
  | zero => exact h
  | succ n ih => exact State.wf_memWrite ih _ _

/-- A stored register is read back from its address (R185). -/
theorem State.memRead_storeFirst {s : State} (h : s.mem.wf = true) {n i : Nat} (hn : n ≤ 16) (hi : i < n) :
    (s.storeFirst n).memRead (addrAdd s.index i) = s.reg (BitVec.ofNat 4 i) := by
  induction n with
  | zero => omega
  | succ n ih =>
    rw [State.storeFirst]
    by_cases hin : i = n
    · subst hin
      exact State.memRead_memWrite_self (State.wf_storeFirst h i) _ _
    · rw [State.memRead_memWrite_ne _ _ (addrAdd_ne (by omega) (by omega) hin)]
      exact ih (by omega) (by omega)

/-- Every byte outside the stored addresses reads as before (R185). -/
theorem State.memRead_storeFirst_ne (s : State) {n : Nat} {a : Address} (h : ∀ i, i < n → a ≠ addrAdd s.index i) :
    (s.storeFirst n).memRead a = s.memRead a := by
  induction n with
  | zero => rfl
  | succ n ih =>
    rw [State.storeFirst, State.memRead_memWrite_ne _ _ (h n (Nat.lt_succ_self n))]
    exact ih fun i hi => h i (by omega)

/-- Loading registers changes the registers only. -/
theorem State.loadFirst_fields (s : State) (n : Nat) : ∃ r, s.loadFirst n = { s with regs := r } := by
  induction n with
  | zero => exact ⟨s.regs, rfl⟩
  | succ n ih => obtain ⟨r, h⟩ := ih; exact ⟨_, by rw [State.loadFirst, h]; rfl⟩

/-- The registers after loading the first `n` (R186). -/
theorem State.reg_loadFirst (s : State) {n : Nat} (hn : n ≤ 16) (j : Nibble) :
    (s.loadFirst n).reg j = if j.toNat < n then s.memRead (addrAdd s.index j.toNat) else s.reg j := by
  induction n with
  | zero => rfl
  | succ n ih =>
    have hj := j.toNat_lt
    rw [State.loadFirst, State.reg_setReg, ih (by omega)]
    by_cases h : j.toNat = n
    · have e : j = BitVec.ofNat 4 n := BitVec.eq_of_toNat_eq (by simp; omega)
      rw [if_pos e, if_pos (by omega), h]
    · have e : j ≠ BitVec.ofNat 4 n := fun e => h (by rw [e]; simp; omega)
      rw [if_neg e]
      by_cases h' : j.toNat < n
      · rw [if_pos h', if_pos (by omega)]
      · rw [if_neg h', if_neg (by omega)]

@[simp] theorem State.readRows_length (s : State) (n : Nat) : (s.readRows n).length = n := by simp [State.readRows]

theorem State.readRows_getD (s : State) {n i : Nat} (h : i < n) :
    (s.readRows n).getD i 0#8 = s.memRead (addrAdd s.index i) := by
  simp [State.readRows, List.getD_eq_getElem?_getD, h]

end Sys2Proof.Machine
end

