-- ==== Sys2Proof/Laws/Platform.lean ====
section
/-! SUPPORT. The laws of the reference platform: a complemented cell, and what a draw leaves and reports. -/

namespace Sys2Proof.Machine

theorem Framebuffer.cell_outside (fb : Framebuffer) {r c : Nat} (h : ¬ (r < 32 ∧ c < 64)) : fb.cell r c = false :=
  if_neg h

/-- Complementing a cell of the grid complements it and nothing else (R232). -/
theorem Framebuffer.cell_toggle (fb : Framebuffer) {y x r c : Nat} (hy : y < 32) (hx : x < 64) :
    (fb.toggle y x).cell r c = if r = y ∧ c = x then !fb.cell y x else fb.cell r c := by
  by_cases h : r < 32 ∧ c < 64
  · have hs := fb.size
    have hl : 64 * y + x < fb.cells.length := by omega
    rw [Framebuffer.toggle, if_pos ⟨hy, hx⟩]
    simp only [Framebuffer.cell, Config.fbHeight, Config.fbWidth, h, hy, hx, and_self, if_true, List.getD_eq_getElem?_getD,
      List.getElem?_set, hl]
    by_cases e : r = y ∧ c = x
    · obtain ⟨rfl, rfl⟩ := e
      simp
    · rw [if_neg e, if_neg (by omega)]
  · rw [Framebuffer.cell_outside _ h, Framebuffer.cell_outside _ h, if_neg (by omega)]

@[simp] theorem Framebuffer.cell_off (r c : Nat) : Framebuffer.off.cell r c = false := by
  unfold Framebuffer.cell Framebuffer.off
  split
  · rw [List.getD_eq_getElem?_getD, List.getElem?_replicate]; split <;> rfl
  · rfl

/-- Two framebuffers whose cells read the same are the same data. -/
theorem Framebuffer.ext_cell {a b : Framebuffer} (h : ∀ r c, a.cell r c = b.cell r c) : a = b := by
  obtain ⟨as, ha⟩ := a
  obtain ⟨bs, hb⟩ := b
  congr
  refine List.ext_getElem (ha.trans hb.symm) fun i hi hi' => ?_
  have := h (i / 64) (i % 64)
  have hr : i / 64 < 32 ∧ i % 64 < 64 := by omega
  have e : 64 * (i / 64) + i % 64 = i := by omega
  simpa [Framebuffer.cell, Config.fbHeight, Config.fbWidth, hr, e, List.getD_eq_getElem?_getD, hi, hi'] using this

/-- One pixel: the cell it falls on, if any, is complemented, and a lit one going out is a collision (R232). -/
theorem drawPixel_spec (y c : Nat) (p : Framebuffer × Bool) :
    (∀ r c', (drawPixel y c p).1.cell r c' = (p.1.cell r c' ^^ decide (r = y ∧ c' = c ∧ y < 32 ∧ c < 64))) ∧
      (drawPixel y c p).2 = (p.2 || p.1.cell y c) := by
  unfold drawPixel
  split
  · rename_i h
    refine ⟨fun r c' => ?_, rfl⟩
    rw [Framebuffer.cell_toggle _ h.1 h.2]
    by_cases e : r = y ∧ c' = c
    · obtain ⟨rfl, rfl⟩ := e
      have h1 : r < 32 := h.1
      have h2 : c' < 64 := h.2
      simp [h1, h2]
    · rw [if_neg e, decide_eq_false (fun w => e ⟨w.1, w.2.1⟩), Bool.xor_false]
  · rename_i h
    refine ⟨fun r c' => ?_, ?_⟩
    · rw [decide_eq_false (fun w => h ⟨w.2.2.1, w.2.2.2⟩), Bool.xor_false]
    · rw [Framebuffer.cell_outside _ h, Bool.or_false]

/-- The first `n` bits of a sprite row at row `y` that fall on `(r, c)`, inside the grid. -/
def rowBits (x0 y : Nat) (row : Byte) (n r c : Nat) : Bool :=
  decide (r = y ∧ r < 32 ∧ c < 64 ∧ x0 ≤ c ∧ c < x0 + n) && row.getLsbD (7 - (c - x0))

/-- The first `n` bits of a sprite row (R232). -/
theorem drawBits_spec (x0 y : Nat) (row : Byte) (p : Framebuffer × Bool) (n : Nat) :
    (∀ r c, (drawBits x0 y row p n).1.cell r c = (p.1.cell r c ^^ rowBits x0 y row n r c)) ∧
      ((drawBits x0 y row p n).2 = true ↔ p.2 = true ∨ ∃ c, rowBits x0 y row n y c = true ∧ p.1.cell y c = true) := by
  induction n with
  | zero =>
    refine ⟨fun r c => ?_, ?_⟩
    · simp only [drawBits, rowBits]
      rw [decide_eq_false (by omega)]; simp
    · simp only [drawBits, rowBits]
      refine ⟨.inl, fun h => h.elim id fun ⟨c, hc, _⟩ => ?_⟩
      rw [decide_eq_false (by omega)] at hc; simp at hc
  | succ b ih =>
    obtain ⟨ihc, ihk⟩ := ih
    have key : ∀ r c, rowBits x0 y row (b + 1) r c =
        (rowBits x0 y row b r c || (decide (r = y ∧ r < 32 ∧ c < 64 ∧ c = x0 + b) && row.getLsbD (7 - b))) := by
      intro r c
      unfold rowBits
      by_cases e : c = x0 + b
      · subst e
        by_cases hg : r = y ∧ r < 32 ∧ x0 + b < 64
        · simp [hg]
        · have h1 : ¬ (r = y ∧ r < 32 ∧ x0 + b < 64 ∧ x0 ≤ x0 + b ∧ x0 + b < x0 + (b + 1)) := by omega
          have h2 : ¬ (r = y ∧ r < 32 ∧ x0 + b < 64 ∧ x0 ≤ x0 + b ∧ x0 + b < x0 + b) := by omega
          have h3 : ¬ (r = y ∧ r < 32 ∧ x0 + b < 64 ∧ x0 + b = x0 + b) := by omega
          rw [decide_eq_false h1, decide_eq_false h2, decide_eq_false h3]; rfl
      · have h1 : decide (r = y ∧ r < 32 ∧ c < 64 ∧ x0 ≤ c ∧ c < x0 + (b + 1)) =
            decide (r = y ∧ r < 32 ∧ c < 64 ∧ x0 ≤ c ∧ c < x0 + b) := decide_eq_decide.mpr (by omega)
        have h2 : ¬ (r = y ∧ r < 32 ∧ c < 64 ∧ c = x0 + b) := by omega
        rw [h1, decide_eq_false h2]; simp
    have disj : ∀ c, rowBits x0 y row b y c = true → c ≠ x0 + b := by
      intro c hc e
      simp only [rowBits, Bool.and_eq_true, decide_eq_true_eq] at hc
      omega
    unfold drawBits
    by_cases hb : row.getLsbD (7 - b) = true
    · simp only [hb, if_true]
      obtain ⟨hpc, hpk⟩ := drawPixel_spec y (x0 + b) (drawBits x0 y row p b)
      refine ⟨fun r c => ?_, ?_⟩
      · rw [hpc, ihc, key, hb, Bool.and_true]
        by_cases e : r = y ∧ c = x0 + b ∧ y < 32 ∧ x0 + b < 64
        · have h1 : rowBits x0 y row b r c = false := by
            by_contra h
            rw [Bool.not_eq_false] at h
            exact disj c (e.1 ▸ h) e.2.1
          have h2 : decide (r = y ∧ r < 32 ∧ c < 64 ∧ c = x0 + b) = true := decide_eq_true (by omega)
          rw [h1, h2, decide_eq_true e]; simp
        · have h2 : decide (r = y ∧ r < 32 ∧ c < 64 ∧ c = x0 + b) = false := decide_eq_false (by omega)
          rw [h2, decide_eq_false e]; simp
      · rw [hpk, Bool.or_eq_true, ihk, ihc]
        have h1 : rowBits x0 y row b y (x0 + b) = false := by
          by_contra h
          rw [Bool.not_eq_false] at h
          exact disj _ h rfl
        rw [h1, Bool.xor_false]
        constructor
        · rintro ((h | ⟨c, hc, hl⟩) | h)
          · exact .inl h
          · exact .inr ⟨c, by rw [key, hc]; rfl, hl⟩
          · by_cases hin : y < 32 ∧ x0 + b < 64
            · exact .inr ⟨x0 + b, by rw [key, hb, decide_eq_true (by omega)]; simp, h⟩
            · rw [Framebuffer.cell_outside _ hin] at h; exact absurd h (by decide)
        · rintro (h | ⟨c, hc, hl⟩)
          · exact .inl (.inl h)
          · rw [key, hb, Bool.and_true, Bool.or_eq_true, decide_eq_true_eq] at hc
            rcases hc with hc | hc
            · exact .inl (.inr ⟨c, hc, hl⟩)
            · exact .inr (by rw [← hc.2.2.2]; exact hl)
    · rw [Bool.not_eq_true] at hb
      have hk : ∀ r c, rowBits x0 y row (b + 1) r c = rowBits x0 y row b r c := by
        intro r c; rw [key, hb, Bool.and_false, Bool.or_false]
      simp only [hb, hk]
      exact ⟨ihc, ihk⟩

/-- The rows of a sprite whose first row is `y` (R232). -/
theorem drawRows_spec (x0 : Nat) (rows : List Byte) (y : Nat) (p : Framebuffer × Bool) :
    (∀ r c, r < 32 → c < 64 → (drawRows x0 y rows p).1.cell r c = (p.1.cell r c ^^ spriteBit x0 y rows r c)) ∧
      ((drawRows x0 y rows p).2 = true ↔
        p.2 = true ∨ ∃ r c, r < 32 ∧ c < 64 ∧ spriteBit x0 y rows r c = true ∧ p.1.cell r c = true) := by
  induction rows generalizing y p with
  | nil =>
    have h0 : ∀ r c, spriteBit x0 y [] r c = false := by intro r c; simp [spriteBit]
    refine ⟨fun r c _ _ => by rw [h0]; simp [drawRows], ?_⟩
    simp [drawRows, h0]
  | cons row rest ih =>
    obtain ⟨hc, hk⟩ := drawBits_spec x0 y row p 8
    obtain ⟨ihc, ihk⟩ := ih (y + 1) (drawBits x0 y row p 8)
    have key : ∀ r c, r < 32 → c < 64 →
        spriteBit x0 y (row :: rest) r c = (rowBits x0 y row 8 r c || spriteBit x0 (y + 1) rest r c) := by
      intro r c hr hcc
      unfold spriteBit rowBits
      by_cases e : r = y
      · subst e
        have h2 : ¬ r + 1 ≤ r := by omega
        by_cases hx : x0 ≤ c ∧ c < x0 + 8
        · simp [h2, hx, hr, hcc]
        · have h3 : ¬ (r = r ∧ r < 32 ∧ c < 64 ∧ x0 ≤ c ∧ c < x0 + 8) := by omega
          rw [decide_eq_false h3]
          by_cases h4 : x0 ≤ c
          · have h5 : ¬ c < x0 + 8 := by omega
            simp [h5]
          · simp [h4]
      · have hne : decide (r = y ∧ r < 32 ∧ c < 64 ∧ x0 ≤ c ∧ c < x0 + 8) = false := decide_eq_false fun w => e w.1
        rw [hne]
        by_cases hy : y ≤ r
        · have h1 : y + 1 ≤ r := by omega
          have h2 : r - y = (r - (y + 1)) + 1 := by omega
          rw [h2]; simp [hy, h1]
        · have h1 : ¬ y + 1 ≤ r := by omega
          have h2 : (y ≤ r) = False := eq_false hy
          simp [h1, h2]
    have disj : ∀ r c, rowBits x0 y row 8 r c = true → spriteBit x0 (y + 1) rest r c = false := by
      intro r c h
      simp only [rowBits, Bool.and_eq_true, decide_eq_true_eq] at h
      have h1 : ¬ y + 1 ≤ r := by omega
      simp [spriteBit, h1]
    refine ⟨fun r c hr hcc => ?_, ?_⟩
    · rw [drawRows, ihc r c hr hcc, hc, key r c hr hcc]
      cases h : rowBits x0 y row 8 r c
      · simp
      · rw [disj r c h]; simp
    · rw [drawRows, ihk, hk]
      constructor
      · rintro ((h | ⟨c, hb, hl⟩) | ⟨r, c, hr, hcc, hb, hl⟩)
        · exact .inl h
        · have hb' := hb
          simp only [rowBits, Bool.and_eq_true, decide_eq_true_eq] at hb'
          exact .inr ⟨y, c, by omega, by omega, by rw [key y c (by omega) (by omega), hb]; rfl, hl⟩
        · rw [hc] at hl
          have h1 : rowBits x0 y row 8 r c = false := by
            by_contra h
            rw [Bool.not_eq_false] at h
            rw [disj r c h] at hb; exact absurd hb (by decide)
          rw [h1, Bool.xor_false] at hl
          exact .inr ⟨r, c, hr, hcc, by rw [key r c hr hcc, hb]; simp, hl⟩
      · rintro (h | ⟨r, c, hr, hcc, hb, hl⟩)
        · exact .inl (.inl h)
        · rw [key r c hr hcc, Bool.or_eq_true] at hb
          rcases hb with hb | hb
          · have hb' := hb
            simp only [rowBits, Bool.and_eq_true, decide_eq_true_eq] at hb'
            obtain ⟨⟨rfl, _⟩, _⟩ := hb'
            exact .inl (.inr ⟨c, hb, hl⟩)
          · have h1 : rowBits x0 y row 8 r c = false := by
              by_contra h
              rw [Bool.not_eq_false] at h
              rw [disj r c h] at hb; exact absurd hb (by decide)
            exact .inr ⟨r, c, hr, hcc, hb, by rw [hc, h1, Bool.xor_false]; exact hl⟩

/-- What `drawSprite` leaves in a cell of the grid, and when it reports a collision (R232). -/
theorem drawSprite_spec (px py : Byte) (rows : List Byte) (fb : Framebuffer) :
    (∀ r c, r < 32 → c < 64 → (drawSprite px py rows fb).1.cell r c = drawnCell px py rows fb r c) ∧
      ((drawSprite px py rows fb).2 = true ↔
        ∃ r c, r < 32 ∧ c < 64 ∧ spriteBit (px.toNat % 64) (py.toNat % 32) rows r c = true ∧ fb.cell r c = true) := by
  obtain ⟨hc, hk⟩ := drawRows_spec (px.toNat % 64) rows (py.toNat % 32) (fb, false)
  refine ⟨hc, hk.trans ⟨fun h => h.resolve_left (by simp), .inr⟩⟩

end Sys2Proof.Machine
end

