-- ==== Sys2Proof/Laws/Scheduler.lean ====
section
/-! SUPPORT. The laws of one cycle and of the scheduler: what a step of `advance` does to the timers, that a step of a
machine whose timers are in range has a positive length, and that fuel equal to the remaining time is enough. -/

namespace Sys2Proof.Machine

/-! ### One cycle -/

/-- What `decodeFor` can answer: an instruction, or `UnknownOpcode` of the word (R125). -/
theorem decodeFor_cases (s : State) (w : Word) :
    (∃ i, decode s.policy.strict59 w = .ok i ∧ decodeFor s w = .ok i) ∨
      (∃ w', decode s.policy.strict59 w = .error (.unknownOpcode w') ∧ decodeFor s w = .error (.unknownOpcode w')) := by
  unfold decodeFor
  cases decode s.policy.strict59 w with
  | ok i => exact .inl ⟨i, rfl, rfl⟩
  | error e => cases e with
    | unknownOpcode w' => exact .inr ⟨w', rfl, rfl⟩

theorem runOneCycle_crashed {s : State} (h : s.crashed = true) :
    runOneCycle s = .next (s.setResult (.err .alreadyCrashed)) := if_pos h

theorem runOneCycle_poll {s : State} {k : Nibble} (h : s.crashed = false) (hk : s.awaitKey = some k) :
    runOneCycle s = pollKey k s := by simp [runOneCycle, h, hk]

theorem runOneCycle_exec {s : State} {i : Instr} (h : s.crashed = false) (hk : s.awaitKey = none)
    (hd : decode s.policy.strict59 (fetch s) = .ok i) : runOneCycle s = exec i s := by
  simp [runOneCycle, h, hk, decodeFor, hd]

theorem runOneCycle_unknown {s : State} {w : Word} (h : s.crashed = false) (hk : s.awaitKey = none)
    (hd : decode s.policy.strict59 (fetch s) = .error (.unknownOpcode w)) :
    runOneCycle s = raise (.unknownOpcode w) s := by
  simp [runOneCycle, h, hk, decodeFor, hd]

/-- What a cycle does: it answers on a crashed machine, polls, raises at decode, or executes (R120). -/
theorem runOneCycle_cases (s : State) :
    (s.crashed = true ∧ runOneCycle s = .next (s.setResult (.err .alreadyCrashed))) ∨
    (∃ k, s.crashed = false ∧ s.awaitKey = some k ∧ runOneCycle s = pollKey k s) ∨
    (∃ w, s.crashed = false ∧ s.awaitKey = none ∧ decode s.policy.strict59 (fetch s) = .error (.unknownOpcode w) ∧
      runOneCycle s = raise (.unknownOpcode w) s) ∨
    (∃ i, s.crashed = false ∧ s.awaitKey = none ∧ decode s.policy.strict59 (fetch s) = .ok i ∧
      runOneCycle s = exec i s) := by
  cases hc : s.crashed with
  | true => exact .inl ⟨rfl, runOneCycle_crashed hc⟩
  | false =>
    cases hk : s.awaitKey with
    | some k => exact .inr (.inl ⟨k, rfl, rfl, runOneCycle_poll hc hk⟩)
    | none =>
      rcases decodeFor_cases s (fetch s) with ⟨i, hd, _⟩ | ⟨w, hd, _⟩
      · exact .inr (.inr (.inr ⟨i, rfl, rfl, hd, runOneCycle_exec hc hk hd⟩))
      · exact .inr (.inr (.inl ⟨w, rfl, rfl, hd, runOneCycle_unknown hc hk hd⟩))

/-- What a poll does (R122, R123). -/
theorem pollKey_cases (k : Nibble) (s : State) :
    (s.released = none ∧ pollKey k s = .next ((s.setReleased none).setResult .ok)) ∨
    (∃ key, s.released = some key ∧
      pollKey k s = .next ((((s.setReleased none).setReg k (zext8 key)).setAwait none).setResult .ok)) := by
  unfold pollKey takeLastReleasedKey
  cases s.released with
  | none => exact .inl ⟨rfl, rfl⟩
  | some key => exact .inr ⟨key, rfl, rfl⟩

/-! ### Timers -/

@[simp] theorem Timer.advance_interval (t : Timer) (d : Nat) : (t.advance d).interval = t.interval := rfl

/-- A timer in range advanced by no more than the time to its next tick is in range (R213, R220). -/
theorem Timer.advance_inRange {t : Timer} {d : Nat} (h : t.inRange) (hd : d ≤ t.untilNext) :
    (t.advance d).inRange := by
  unfold Timer.inRange Timer.untilNext at *
  by_cases hf : t.interval ≤ t.acc + d
  · have : (t.advance d).acc = t.acc + d - t.interval := by simp [Timer.advance, Timer.fires, hf]
    rw [this, Timer.advance_interval]; omega
  · have : (t.advance d).acc = t.acc + d := by simp [Timer.advance, Timer.fires, hf]
    rw [this, Timer.advance_interval]; omega

/-- The accumulated time is the exact sum modulo the interval (R213). -/
theorem Timer.advance_acc {t : Timer} {d : Nat} (h : t.inRange) (hd : d ≤ t.untilNext) :
    (t.advance d).acc = (t.acc + d) % t.interval := by
  unfold Timer.inRange Timer.untilNext at *
  by_cases hf : t.interval ≤ t.acc + d
  · have e : (t.advance d).acc = t.acc + d - t.interval := by simp [Timer.advance, Timer.fires, hf]
    have : t.acc + d = t.interval := by omega
    rw [e, this]; simp
  · have e : (t.advance d).acc = t.acc + d := by simp [Timer.advance, Timer.fires, hf]
    rw [e, Nat.mod_eq_of_lt (by omega)]

theorem Timer.untilNext_pos {t : Timer} (h : t.inRange) : 0 < t.untilNext := Nat.sub_pos_of_lt h

theorem stepLength_le_remaining (r : Nat) (s : State) : stepLength r s ≤ r := Nat.min_le_left ..

theorem stepLength_le_untilNext (r : Nat) (s : State) :
    stepLength r s ≤ s.tInstr.untilNext ∧ stepLength r s ≤ s.tDelay.untilNext ∧
      stepLength r s ≤ s.tSound.untilNext := by
  unfold stepLength; omega

/-- A step of a machine whose timers are in range has a positive length (R220). -/
theorem stepLength_pos {r : Nat} {s : State} (hr : r ≠ 0) (h : s.timersInRange) : stepLength r s ≠ 0 := by
  have h1 := Timer.untilNext_pos h.1
  have h2 := Timer.untilNext_pos h.2.1
  have h3 := Timer.untilNext_pos h.2.2
  unfold stepLength; omega

/-- The state after phase 1 differs in the three timers only. -/
theorem advanceTimers_eq (d : Nat) (s : State) : advanceTimers d s =
    { s with tInstr := s.tInstr.advance d, tDelay := s.tDelay.advance d, tSound := s.tSound.advance d } := rfl

/-- Phase 1 of a step no longer than any timer's time to its next tick keeps the timers in range (R220). -/
theorem advanceTimers_inRange {d : Nat} {s : State} (h : s.timersInRange)
    (hd : d ≤ s.tInstr.untilNext ∧ d ≤ s.tDelay.untilNext ∧ d ≤ s.tSound.untilNext) :
    (advanceTimers d s).timersInRange :=
  ⟨Timer.advance_inRange h.1 hd.1, Timer.advance_inRange h.2.1 hd.2.1, Timer.advance_inRange h.2.2 hd.2.2⟩

end Sys2Proof.Machine
end

