-- ==== Sys2Proof/Laws/HostCalls.lean ====
section
/-! SUPPORT. The laws of the loader, of placing a word, and of the unit of time. -/

namespace Sys2Proof.Machine

/-- Loading bytes keeps memory canonical (R244). -/
theorem Memory.wf_load {m : Memory} (h : m.wf = true) (a : Address) (l : List Byte) :
    (Memory.load m a l).wf = true := by
  induction l generalizing m a with
  | nil => exact h
  | cons b rest ih => exact ih (Memory.wf_put h a.isLt) _

/-- Loading single bytes keeps memory canonical (R283). -/
theorem Memory.wf_loadExtra {m : Memory} (h : m.wf = true) (l : List (Address × Byte)) :
    (Memory.loadExtra m l).wf = true := by
  induction l generalizing m with
  | nil => exact h
  | cons p rest ih => exact ih (Memory.wf_put h p.1.isLt)

/-- Memory after a reset is canonical. -/
theorem wf_launchMemory (l : Launch) : (launchMemory l).wf = true :=
  Memory.wf_load (Memory.wf_loadExtra rfl _) _ _

theorem addrAdd_addrAdd (a : Address) (m n : Nat) : addrAdd (addrAdd a m) n = addrAdd a (m + n : Nat) := by
  apply BitVec.eq_of_toNat_eq
  rw [addrAdd_toNat, addrAdd_toNat, addrAdd_toNat]; omega

/-- Loading leaves the bytes outside the loaded addresses alone (R244). -/
theorem Memory.get_load_ne {m : Memory} {a b : Address} {l : List Byte}
    (h : ∀ i : Nat, i < l.length → b ≠ addrAdd a i) : (Memory.load m a l).get b.toNat = m.get b.toNat := by
  induction l generalizing m a with
  | nil => rfl
  | cons v rest ih =>
    have h0 := h 0 (by simp)
    rw [Int.natCast_zero, addrAdd_zero] at h0
    rw [Memory.load, ih, Memory.get_put_ne _ _ fun e => h0 (BitVec.eq_of_toNat_eq e)]
    intro i hi e
    refine h (i + 1) (by simpa using hi) ?_
    have := addrAdd_addrAdd a 1 i
    rw [Nat.add_comm] at this
    rw [e]; exact this

/-- Loaded bytes read back from their addresses, if they are at most as many as memory has (R244). -/
theorem Memory.get_load {m : Memory} (hm : m.wf = true) {a : Address} {l : List Byte} (hl : l.length ≤ 4096)
    {i : Nat} (hi : i < l.length) : (Memory.load m a l).get (addrAdd a i).toNat = l.getD i 0#8 := by
  induction l generalizing m a i with
  | nil => exact absurd hi (Nat.not_lt_zero i)
  | cons v rest ih =>
    rw [Memory.load]
    have hr : rest.length < 4096 := by simpa using hl
    cases i with
    | zero =>
      rw [Memory.get_load_ne, Int.natCast_zero, addrAdd_zero, Memory.get_put_self v hm]
      · rfl
      · intro j hj e
        have := addrAdd_addrAdd a 1 j
        have h2 : addrAdd a (0 : Nat) = addrAdd a (1 + j : Nat) := e.trans this
        exact absurd (addrAdd_inj (by omega) (by omega) h2) (by omega)
    | succ i =>
      have := addrAdd_addrAdd a 1 i
      rw [Nat.add_comm] at this
      rw [← this]
      exact ih (Memory.wf_put hm a.isLt) (by omega) (by simpa using hi)

/-- Single loaded bytes leave every other byte alone (R283). -/
theorem Memory.get_loadExtra_ne {m : Memory} {b : Address} {l : List (Address × Byte)} (h : ∀ v, (b, v) ∉ l) :
    (Memory.loadExtra m l).get b.toNat = m.get b.toNat := by
  induction l generalizing m with
  | nil => rfl
  | cons p rest ih =>
    obtain ⟨a, v⟩ := p
    rw [Memory.loadExtra, ih fun v hv => h v (List.mem_cons_of_mem _ hv),
      Memory.get_put_ne _ _ fun e => h v (by rw [BitVec.eq_of_toNat_eq e]; exact List.mem_cons_self)]

/-- A single loaded byte reads back where no later one overwrites it (R283). -/
theorem Memory.get_loadExtra {m : Memory} (hm : m.wf = true) {a : Address} {v : Byte}
    (before : List (Address × Byte)) {after : List (Address × Byte)} (h : ∀ v', (a, v') ∉ after) :
    (Memory.loadExtra m (before ++ (a, v) :: after)).get a.toNat = v := by
  induction before generalizing m with
  | nil => exact (Memory.get_loadExtra_ne h).trans (Memory.get_put_self v hm)
  | cons p rest ih => exact ih (Memory.wf_put hm p.1.isLt)

/-- A word stored at an address is read back there, wherever it stands on the ring (R54). -/
theorem memRead2_storeWord {s : State} (h : s.mem.wf = true) (a : Address) (w : Word) :
    (storeWord a w s).memRead2 a = w := by
  have h1 : a ≠ addrAdd a 1 := by
    have := addrAdd_ne (a := a) (m := 0) (n := 1) (by omega) (by omega) (by omega)
    simpa using this
  unfold State.memRead2 storeWord
  simp only []
  rw [State.memRead_memWrite_self (State.wf_memWrite h _ _), State.memRead_memWrite_ne _ _ h1,
    State.memRead_memWrite_self h, wordOfBytes_bytesOfWord]

end Sys2Proof.Machine

namespace Sys2Proof

/-! ### The unit of time -/

/-- Milliseconds that are a whole number of units convert without loss (R211). -/
theorem TimeUnit.unitsOf_exact {u : TimeUnit} {ms : Nat} (h : u.exact ms = true) :
    u.unitsOf ms * u.num = ms * 1000000 * u.den :=
  Nat.div_mul_cancel (Nat.dvd_of_mod_eq_zero (by simpa [TimeUnit.exact] using h))

/-- Two lengths of time, as the machine counts them, are in the proportion of their lengths, whatever the exact unit
(R211). -/
theorem TimeUnit.unitsOf_ratio {u : TimeUnit} {m n : Nat} (hm : u.exact m = true) (hn : u.exact n = true) :
    u.unitsOf m * n = u.unitsOf n * m := by
  have h := TimeUnit.unitsOf_exact hm
  have g := TimeUnit.unitsOf_exact hn
  apply Nat.eq_of_mul_eq_mul_right u.positive.1
  calc u.unitsOf m * n * u.num = u.unitsOf m * u.num * n := by ac_rfl
    _ = m * 1000000 * u.den * n := by rw [h]
    _ = n * 1000000 * u.den * m := by ac_rfl
    _ = u.unitsOf n * u.num * m := by rw [g]
    _ = u.unitsOf n * m * u.num := by ac_rfl

end Sys2Proof
end

