-- ==== Sys2Proof/Laws/Exec.lean ====
section
/-! SUPPORT. What an instruction and a cycle can do, said once: each raises, or completes and leaves alone what no
instruction may touch. Invariants over steps are derived from these. -/

namespace Sys2Proof.Machine

/-- An instruction that completes: what the machine's invariant and the scheduler need to know of it. -/
structure Completed (s t : State) : Prop where
  result    : t.result = .ok
  crashed   : t.crashed = s.crashed
  memory    : s.mem.wf = true → t.mem.wf = true
  stack     : s.stack.length ≤ Config.stackUsable → t.stack.length ≤ Config.stackUsable
  tInstr    : t.tInstr = s.tInstr
  tDelay    : t.tDelay = s.tDelay
  tSound    : t.tSound = s.tSound
  keys      : t.keys = s.keys
  policy    : t.policy = s.policy
  hostQueue : t.hostQueue = s.hostQueue

theorem Completed.stepNext {s u : State} (hc : u.crashed = s.crashed) (hm : s.mem.wf = true → u.mem.wf = true)
    (hs : u.stack = s.stack) (h1 : u.tInstr = s.tInstr) (h2 : u.tDelay = s.tDelay) (h3 : u.tSound = s.tSound)
    (hk : u.keys = s.keys) (hp : u.policy = s.policy) (hq : u.hostQueue = s.hostQueue) :
    ∃ t, stepNext u = .next t ∧ Completed s t :=
  ⟨_, rfl, rfl, hc, hm, fun h => by simpa [hs] using h, h1, h2, h3, hk, hp, hq⟩

theorem Completed.skipIf (c : Bool) (s : State) : ∃ t, skipIf c s = .next t ∧ Completed s t :=
  ⟨_, skipIf_eq c s, rfl, rfl, id, id, rfl, rfl, rfl, rfl, rfl, rfl⟩

theorem Completed.goTo {s u : State} (a : Address) (h : Completed s (u.setResult .ok)) :
    ∃ t, goTo a u = .next t ∧ Completed s t :=
  ⟨_, rfl, rfl, h.crashed, h.memory, h.stack, h.tInstr, h.tDelay, h.tSound, h.keys, h.policy, h.hostQueue⟩

/-- An instruction raises, or completes (R126, R130). -/
theorem exec_cases (i : Instr) (s : State) :
    (∃ f, exec i s = raise f s) ∨ (∃ t, exec i s = .next t ∧ Completed s t) := by
  cases i with
  | ret =>
    rcases pop_cases s with ⟨_, h⟩ | ⟨l, a, hl, h⟩
    · exact .inl ⟨_, by simp only [exec, execRet, h]; rfl⟩
    · refine .inr ?_
      simp only [exec, execRet, h]
      refine Completed.goTo a ⟨rfl, rfl, id, fun hs => ?_, rfl, rfl, rfl, rfl, rfl, rfl⟩
      rw [hl] at hs
      exact Nat.le_trans (by simp) hs
  | call nnn =>
    by_cases h : s.stack.length < Config.stackUsable
    · refine .inr ?_
      simp only [exec, execCall, push_ok h]
      exact Completed.goTo nnn ⟨rfl, rfl, id, fun _ => by simpa using h, rfl, rfl, rfl, rfl, rfl, rfl⟩
    · exact .inl ⟨_, by simp only [exec, execCall, push_error (Nat.le_of_not_lt h)]; rfl⟩
  | jump nnn => exact .inr (Completed.goTo _ ⟨rfl, rfl, id, id, rfl, rfl, rfl, rfl, rfl, rfl⟩)
  | jumpWithOffset nnn => exact .inr (Completed.goTo _ ⟨rfl, rfl, id, id, rfl, rfl, rfl, rfl, rfl, rfl⟩)
  | skipKeyDown x =>
    rcases nibOfReg_cases s.policy.nibblePolicy (s.reg x) with ⟨k, h, _⟩ | ⟨h, _⟩
    · exact .inr (by simp only [exec, execSkipKeyDown, h]; exact Completed.skipIf _ s)
    · exact .inl ⟨_, by simp only [exec, execSkipKeyDown, h]; rfl⟩
  | skipKeyUp x =>
    rcases nibOfReg_cases s.policy.nibblePolicy (s.reg x) with ⟨k, h, _⟩ | ⟨h, _⟩
    · exact .inr (by simp only [exec, execSkipKeyUp, h]; exact Completed.skipIf _ s)
    · exact .inl ⟨_, by simp only [exec, execSkipKeyUp, h]; rfl⟩
  | fontAddr x =>
    rcases nibOfReg_cases s.policy.nibblePolicy (s.reg x) with ⟨k, h, _⟩ | ⟨h, _⟩
    · exact .inr (by simp only [exec, execFontAddr, h]; exact Completed.stepNext rfl id rfl rfl rfl rfl rfl rfl rfl)
    · exact .inl ⟨_, by simp only [exec, execFontAddr, h]; rfl⟩
  | bcd x =>
    exact .inr (Completed.stepNext rfl (fun h => State.wf_memWrite (State.wf_memWrite (State.wf_memWrite h _ _) _ _) _ _)
      rfl rfl rfl rfl rfl rfl rfl)
  | storeRegs x =>
    obtain ⟨m, hm⟩ := State.storeFirst_fields s (x.toNat + 1)
    refine .inr ?_
    have hw : s.mem.wf = true → m.wf = true := fun h => by have := State.wf_storeFirst h (x.toNat + 1); rwa [hm] at this
    simp only [exec, execStoreRegs, hm]
    exact Completed.stepNext rfl hw rfl rfl rfl rfl rfl rfl rfl
  | loadRegs x =>
    obtain ⟨m, hm⟩ := State.loadFirst_fields s (x.toNat + 1)
    refine .inr ?_
    simp only [exec, execLoadRegs, hm]
    exact Completed.stepNext rfl id rfl rfl rfl rfl rfl rfl rfl
  | _ =>
    first
      | exact .inr (Completed.stepNext rfl id rfl rfl rfl rfl rfl rfl rfl)
      | exact .inr (Completed.skipIf _ s)

/-- A cycle answers a next state: on a crashed machine it only returns the fault, otherwise it raises one or completes
(R120, R256). -/
theorem runOneCycle_answer (s : State) :
    (s.crashed = true ∧ runOneCycle s = .next (s.setResult (.err .alreadyCrashed))) ∨
    (s.crashed = false ∧ ∃ f, runOneCycle s = .next (s.crash.setResult (.err f))) ∨
    (s.crashed = false ∧ ∃ t, runOneCycle s = .next t ∧ Completed s t) := by
  rcases runOneCycle_cases s with ⟨hc, h⟩ | ⟨k, hc, _, h⟩ | ⟨w, hc, _, _, h⟩ | ⟨i, hc, _, _, h⟩
  · exact .inl ⟨hc, h⟩
  · refine .inr (.inr ⟨hc, ?_⟩)
    rw [h]
    rcases pollKey_cases k s with ⟨_, hp⟩ | ⟨key, _, hp⟩
    · exact ⟨_, hp, rfl, rfl, id, id, rfl, rfl, rfl, rfl, rfl, rfl⟩
    · exact ⟨_, hp, rfl, rfl, id, id, rfl, rfl, rfl, rfl, rfl, rfl⟩
  · exact .inr (.inl ⟨hc, _, h⟩)
  · rw [h]
    rcases exec_cases i s with ⟨f, he⟩ | he
    · exact .inr (.inl ⟨hc, f, he⟩)
    · exact .inr (.inr ⟨hc, he⟩)

end Sys2Proof.Machine
end

