-- ==== Sys2Proof/Laws/Advance.lean ====
section
/-! SUPPORT. What `advance` can do, said once: phase 2 of a step leaves the timers alone and answers a next state, the
fuel of the loop does not matter, and a step that makes no timer tick can be split off or joined. -/

namespace Sys2Proof.Machine

/-- What every effect of a tick, and so phase 2 of a step, leaves as it was or keeps true. -/
structure Kept (s t : State) : Prop where
  memory    : s.mem.wf = true → t.mem.wf = true
  stack     : s.stack.length ≤ Config.stackUsable → t.stack.length ≤ Config.stackUsable
  tInstr    : t.tInstr = s.tInstr
  tDelay    : t.tDelay = s.tDelay
  tSound    : t.tSound = s.tSound
  keys      : t.keys = s.keys
  policy    : t.policy = s.policy
  hostQueue : t.hostQueue = s.hostQueue
  errors    : (∀ f, s.result = .err f → s.crashed = true) → ∀ f, t.result = .err f → t.crashed = true

theorem Kept.refl (s : State) : Kept s s := ⟨id, id, rfl, rfl, rfl, rfl, rfl, rfl, id⟩

theorem Kept.trans {s t u : State} (h : Kept s t) (g : Kept t u) : Kept s u :=
  ⟨g.memory ∘ h.memory, g.stack ∘ h.stack, g.tInstr.trans h.tInstr, g.tDelay.trans h.tDelay, g.tSound.trans h.tSound,
    g.keys.trans h.keys, g.policy.trans h.policy, g.hostQueue.trans h.hostQueue, g.errors ∘ h.errors⟩

theorem Completed.kept {s t : State} (h : Completed s t) : Kept s t :=
  ⟨h.memory, h.stack, h.tInstr, h.tDelay, h.tSound, h.keys, h.policy, h.hostQueue,
    fun _ f e => by rw [h.result] at e; cases e⟩

theorem Kept.timersInRange {s t : State} (h : Kept s t) (hs : s.timersInRange) : t.timersInRange := by
  unfold State.timersInRange
  rw [h.tInstr, h.tDelay, h.tSound]; exact hs

/-- A cycle answers a next state and keeps what no cycle may touch. -/
theorem runOneCycle_kept (s : State) : ∃ t, runOneCycle s = .next t ∧ Kept s t := by
  rcases runOneCycle_answer s with ⟨hc, h⟩ | ⟨_, f, h⟩ | ⟨_, t, h, hk⟩
  · exact ⟨_, h, id, id, rfl, rfl, rfl, rfl, rfl, rfl, fun _ _ _ => hc⟩
  · exact ⟨_, h, id, id, rfl, rfl, rfl, rfl, rfl, rfl, fun _ _ _ => rfl⟩
  · exact ⟨t, h, hk.kept⟩

/-- An effect answers a next state and keeps what no effect may touch (R215). -/
theorem tickEffect_kept (t : TimerId) (s : State) : ∃ u, tickEffect t s = .next u ∧ Kept s u := by
  cases t with
  | instr => exact runOneCycle_kept s
  | delay => exact ⟨_, rfl, id, id, rfl, rfl, rfl, rfl, rfl, rfl, fun _ f e => by cases e⟩
  | sound => exact ⟨_, rfl, id, id, rfl, rfl, rfl, rfl, rfl, rfl, fun _ f e => by cases e⟩

/-- One more timer in phase 2: its effect if it ticked, and on without a fault. -/
theorem runEffects_cons {fired : TimerId → Bool} {t : TimerId} {s u : State} (hf : fired t = true)
    (h : tickEffect t s = .next u) (rest : List TimerId) :
    runEffects fired (t :: rest) s = if u.result = .ok then runEffects fired rest u else .next u := by
  rw [runEffects, if_pos hf, h]

theorem runEffects_skip {fired : TimerId → Bool} {t : TimerId} (s : State) (hf : fired t = false)
    (rest : List TimerId) : runEffects fired (t :: rest) s = runEffects fired rest s := by
  rw [runEffects, if_neg (by simp [hf])]

/-- Phase 2 answers a next state and keeps what no effect may touch (R214). -/
theorem runEffects_kept (fired : TimerId → Bool) (l : List TimerId) (s : State) :
    ∃ u, runEffects fired l s = .next u ∧ Kept s u := by
  induction l generalizing s with
  | nil => exact ⟨s, rfl, Kept.refl s⟩
  | cons t rest ih =>
    by_cases hf : fired t = true
    · obtain ⟨u, hu, hk⟩ := tickEffect_kept t s
      rw [runEffects_cons hf hu]
      split
      · obtain ⟨v, hv, hk'⟩ := ih u
        exact ⟨v, hv, hk.trans hk'⟩
      · exact ⟨u, rfl, hk⟩
    · rw [runEffects_skip s (by simpa using hf)]
      exact ih s

/-- Phase 2 with no timer that ticked does nothing. -/
theorem runEffects_none {fired : TimerId → Bool} (h : ∀ t, fired t = false) (l : List TimerId) (s : State) :
    runEffects fired l s = .next s := by
  induction l with
  | nil => rfl
  | cons t rest ih => rw [runEffects_skip s (h t), ih]

/-- Each timer is in `TICK_ORDER` once (R216). -/
theorem TickOrder.toList_perm (o : TickOrder) : o.toList.Perm [.instr, .delay, .sound] := by
  cases o <;> decide

/-- One iteration answers a next state whose timers are those of phase 1 (R214). -/
theorem advanceStep_kept (d : Nat) (s : State) : ∃ u, advanceStep d s = .next u ∧ Kept (advanceTimers d s) u :=
  runEffects_kept _ _ _

/-- One iteration of the loop that goes on or ends (R214). -/
theorem advanceLoop_step {fuel r : Nat} {s u : State} (hr : r ≠ 0) (hd : stepLength r s ≠ 0)
    (h : advanceStep (stepLength r s) s = .next u) :
    advanceLoop (fuel + 1) r s = if u.result = .ok then advanceLoop fuel (r - stepLength r s) u else .next u := by
  rw [advanceLoop, if_neg hr]
  simp only [if_neg hd, h]

theorem advanceLoop_zero (fuel : Nat) (s : State) : advanceLoop fuel 0 s = .next s := by
  cases fuel <;> simp [advanceLoop]

/-- Timers in range stay in range over one iteration (R220). -/
theorem advanceStep_inRange {r : Nat} {s u : State} (hs : s.timersInRange)
    (h : advanceStep (stepLength r s) s = .next u) : u.timersInRange := by
  obtain ⟨v, hv, hk⟩ := advanceStep_kept (stepLength r s) s
  rw [h] at hv; cases hv
  exact hk.timersInRange (advanceTimers_inRange hs (stepLength_le_untilNext r s))

/-- Fuel beyond the remaining time changes nothing (R220). -/
theorem advanceLoop_fuel {fuel r : Nat} {s : State} (hs : s.timersInRange) (h : r ≤ fuel) :
    advanceLoop fuel r s = advanceLoop r r s := by
  induction fuel using Nat.strong_induction_on generalizing r s with
  | _ fuel ih =>
    by_cases hr : r = 0
    · subst hr; rw [advanceLoop_zero, advanceLoop_zero]
    · have hd := stepLength_pos hr hs
      have hle := stepLength_le_remaining r s
      obtain ⟨u, hu, _⟩ := advanceStep_kept (stepLength r s) s
      obtain ⟨f, rfl⟩ : ∃ f, fuel = f + 1 := ⟨fuel - 1, by omega⟩
      obtain ⟨r', rfl⟩ : ∃ r', r = r' + 1 := ⟨r - 1, by omega⟩
      rw [advanceLoop_step hr hd hu, advanceLoop_step hr hd hu]
      have hu' := advanceStep_inRange hs hu
      by_cases hf : f = r'
      · rw [hf]
      · rw [ih f (by omega) hu' (by omega), ih r' (by omega) hu' (by omega)]

end Sys2Proof.Machine
end

