-- ==== Sys2Proof/Laws/Frames.lean ====
section
/-! SUPPORT. What the shared operations leave unchanged, in the terms of Safety.lean: `UnchangedExcept` is reflexive,
transitive and monotone; raising, stepping and skipping each have one lemma that says everything they do. -/

namespace Sys2Proof.Machine

theorem Part.same_trans {s t u : State} {p : Part} (h : p.same s t) (g : p.same t u) : p.same s u := by
  cases p
  case regs => exact fun i => (g i).trans (h i)
  case mem => exact fun a => (g a).trans (h a)
  case fb => exact fun r c => (g r c).trans (h r c)
  case keys => exact fun k => (g k).trans (h k)
  all_goals exact Eq.trans g h

theorem Part.same_refl (s : State) (p : Part) : p.same s s := by
  cases p <;> first | rfl | (intro _; rfl) | (intro _ _; rfl)

theorem UnchangedExcept.refl (ps : List Part) (s : State) : UnchangedExcept ps s s := fun p _ => Part.same_refl s p

theorem UnchangedExcept.trans {ps : List Part} {s t u : State} (h : UnchangedExcept ps s t)
    (g : UnchangedExcept ps t u) : UnchangedExcept ps s u := fun p hp => Part.same_trans (h p hp) (g p hp)

theorem UnchangedExcept.mono {ps qs : List Part} {s t : State} (h : UnchangedExcept ps s t) (hq : ∀ p ∈ ps, p ∈ qs) :
    UnchangedExcept qs s t := fun p hp => h p fun hm => hp (hq p hm)

/-! ### One setter changes one part -/

theorem unchanged_setReg (s : State) (i : Nibble) (v : Byte) : UnchangedExcept [.regs] s (s.setReg i v) := by
  intro p hp; cases p <;> simp_all [Part.same]

theorem unchanged_memWrite (s : State) (a : Address) (v : Byte) : UnchangedExcept [.mem] s (s.memWrite a v) := by
  intro p hp; cases p <;> simp_all [Part.same]

theorem unchanged_setIndex (s : State) (a : Address) : UnchangedExcept [.index] s (s.setIndex a) := by
  intro p hp; cases p <;> simp_all [Part.same]

theorem unchanged_setStack (s : State) (l : List Address) : UnchangedExcept [.stack] s (s.setStack l) := by
  intro p hp; cases p <;> simp_all [Part.same]

theorem unchanged_setQueue (s : State) (q : List HostCall) : UnchangedExcept [.hostQueue] s (s.setQueue q) := by
  intro p hp; cases p <;> simp_all [Part.same]

theorem unchanged_setResult (s : State) (r : CycleResult) : UnchangedExcept [.result] s (s.setResult r) := by
  intro p hp; cases p <;> simp_all [Part.same]

theorem unchanged_setKey (s : State) (k : Nibble) (d : Bool) : UnchangedExcept [.keys] s (s.setKey k d) := by
  intro p hp; cases p <;> simp_all [Part.same]

theorem unchanged_setReleased (s : State) (k : Option Nibble) : UnchangedExcept [.released] s (s.setReleased k) := by
  intro p hp; cases p <;> simp_all [Part.same]

theorem unchanged_storeFirst (s : State) (n : Nat) : UnchangedExcept [.mem] s (s.storeFirst n) := by
  induction n with
  | zero => exact .refl _ s
  | succ n ih => exact ih.trans (unchanged_memWrite _ _ _)

theorem unchanged_loadFirst (s : State) (n : Nat) : UnchangedExcept [.regs] s (s.loadFirst n) := by
  induction n with
  | zero => exact .refl _ s
  | succ n ih => exact ih.trans (unchanged_setReg _ _ _)

/-! ### Raising, stepping, skipping, writing a result and a flag -/

/-- Everything raising a fault does (R256). -/
theorem raise_spec (f : Fault) (s : State) : ∃ t, raise f s = .next t ∧ RaisedOnly f s t := by
  refine ⟨_, rfl, rfl, rfl, fun p hp => ?_⟩
  cases p <;> simp_all [Part.same]

/-- Everything the generic step does (R128). -/
theorem stepNext_spec (s : State) :
    ∃ t, stepNext s = .next t ∧ CompletedNext s t ∧ UnchangedExcept [.pc, .result] s t := by
  refine ⟨_, rfl, ⟨rfl, addrAdd_toNat s.pc 2⟩, fun p hp => ?_⟩
  cases p <;> simp_all [Part.same]

/-- Everything a skip does (R128, R150). -/
theorem skipIf_spec (c : Bool) (s : State) :
    ∃ t, skipIf c s = .next t ∧ CompletedSkip (c = true) s t ∧ UnchangedExcept [.pc, .result] s t := by
  refine ⟨_, skipIf_eq c s, ⟨rfl, fun h => ?_, fun h => ?_⟩, fun p hp => ?_⟩
  · subst h; exact addrAdd_toNat s.pc 4
  · rw [Bool.not_eq_true] at h; subst h; exact addrAdd_toNat s.pc 2
  · cases p <;> simp_all [Part.same]

/-- Everything an instruction does that writes a result, then the flag, and steps (R160). -/
theorem setRegFlag_spec (s : State) (x : Nibble) (r f : Byte) :
    ∃ t, stepNext (s.setRegFlag x r f) = .next t ∧ t.reg 15#4 = f ∧ (x ≠ 15#4 → t.reg x = r) ∧
      RegsUnchangedExcept [x, 15#4] s t ∧ CompletedNext s t ∧ UnchangedExcept [.regs, .pc, .result] s t := by
  have h15 : Config.flagReg = 15#4 := rfl
  refine ⟨_, rfl, ?_, fun h => ?_, fun i hi => ?_, ⟨rfl, addrAdd_toNat s.pc 2⟩, fun p hp => ?_⟩
  · simp [State.reg_setRegFlag, h15]
  · simp [State.reg_setRegFlag, h15, h]
  · simp_all [State.reg_setRegFlag]
  · cases p <;> simp_all [Part.same, State.setRegFlag]

/-- What is not at an address of an access at `I` (R59). -/
theorem ne_of_not_mem_access {s : State} {n : Nat} {a : Address} (h : a ∉ accessAddresses s n) :
    ∀ i : Nat, i < n → a ≠ addrAdd s.index i := fun i hi e =>
  h (List.mem_map.mpr ⟨i, List.mem_range.mpr hi, e.symm⟩)

end Sys2Proof.Machine
end

