-- ==== Sys2Proof/Laws/PerInstr.lean ====
section
/-! SUPPORT. Statements made for every instruction, one lemma per constructor. EncodingRow: the word an instruction is
encoded as selects the instruction's own row of the opcode table (30_encoding.md R75), strictly or not (R81). -/

namespace Sys2Proof.Laws

/-- The word of `i` selects the row of `i`. -/
def EncodingRow.Statement (i : Instr) : Prop := ∀ strict, i.selectedBy strict (encode i) = true

/-- A row selected by the high nibble. -/
theorem EncodingRow.highNibble {i : Instr} (hm : ∀ b, i.mask b = 0xF000#16)
    (h : wordXYN (fieldOP (encode i)) 0#4 0#4 0#4 = i.matchBits) : EncodingRow.Statement i := by
  intro strict
  rw [Instr.selectedBy, hm, and_F000, h, beq_self_eq_true]

/-- A row selected by the high and the low nibble. -/
theorem EncodingRow.twoNibbles {i : Instr} (hm : ∀ b, i.mask b = 0xF00F#16)
    (h : wordXYN (fieldOP (encode i)) 0#4 0#4 (fieldN (encode i)) = i.matchBits) : EncodingRow.Statement i := by
  intro strict
  rw [Instr.selectedBy, hm, and_F00F, h, beq_self_eq_true]

/-- A row selected by the high nibble and the low byte. -/
theorem EncodingRow.lowByte {i : Instr} (hm : ∀ b, i.mask b = 0xF0FF#16)
    (h : wordXNN (fieldOP (encode i)) 0#4 (fieldNN (encode i)) = i.matchBits) : EncodingRow.Statement i := by
  intro strict
  rw [Instr.selectedBy, hm, and_F0FF, h, beq_self_eq_true]

theorem EncodingRow.clearScreen : EncodingRow.Statement (.clearScreen) := by
  intro strict; cases strict <;> rfl
theorem EncodingRow.ret : EncodingRow.Statement (.ret) := by
  intro strict; cases strict <;> rfl
theorem EncodingRow.jump (nnn : Address) : EncodingRow.Statement (.jump nnn) :=
  highNibble (fun _ => rfl) (by rw [encode, fieldOP_wordNNN]; rfl)
theorem EncodingRow.call (nnn : Address) : EncodingRow.Statement (.call nnn) :=
  highNibble (fun _ => rfl) (by rw [encode, fieldOP_wordNNN]; rfl)
theorem EncodingRow.skipEqImm (x : Nibble) (nn : Byte) : EncodingRow.Statement (.skipEqImm x nn) :=
  highNibble (fun _ => rfl) (by rw [encode, fieldOP_wordXNN]; rfl)
theorem EncodingRow.skipNeImm (x : Nibble) (nn : Byte) : EncodingRow.Statement (.skipNeImm x nn) :=
  highNibble (fun _ => rfl) (by rw [encode, fieldOP_wordXNN]; rfl)
theorem EncodingRow.skipEqReg (x : Nibble) (y : Nibble) : EncodingRow.Statement (.skipEqReg x y) := by
  intro strict
  cases strict
  · rw [Instr.selectedBy, Instr.mask, if_neg (by decide), and_F000, encode, fieldOP_wordXYN]; rfl
  · rw [Instr.selectedBy, Instr.mask, if_pos rfl, and_F00F, encode, fieldOP_wordXYN, fieldN_wordXYN]; rfl
theorem EncodingRow.loadImm (x : Nibble) (nn : Byte) : EncodingRow.Statement (.loadImm x nn) :=
  highNibble (fun _ => rfl) (by rw [encode, fieldOP_wordXNN]; rfl)
theorem EncodingRow.addImm (x : Nibble) (nn : Byte) : EncodingRow.Statement (.addImm x nn) :=
  highNibble (fun _ => rfl) (by rw [encode, fieldOP_wordXNN]; rfl)
theorem EncodingRow.copy (x : Nibble) (y : Nibble) : EncodingRow.Statement (.copy x y) :=
  twoNibbles (fun _ => rfl) (by rw [encode, fieldOP_wordXYN, fieldN_wordXYN]; rfl)
theorem EncodingRow.or (x : Nibble) (y : Nibble) : EncodingRow.Statement (.or x y) :=
  twoNibbles (fun _ => rfl) (by rw [encode, fieldOP_wordXYN, fieldN_wordXYN]; rfl)
theorem EncodingRow.and (x : Nibble) (y : Nibble) : EncodingRow.Statement (.and x y) :=
  twoNibbles (fun _ => rfl) (by rw [encode, fieldOP_wordXYN, fieldN_wordXYN]; rfl)
theorem EncodingRow.xor (x : Nibble) (y : Nibble) : EncodingRow.Statement (.xor x y) :=
  twoNibbles (fun _ => rfl) (by rw [encode, fieldOP_wordXYN, fieldN_wordXYN]; rfl)
theorem EncodingRow.addReg (x : Nibble) (y : Nibble) : EncodingRow.Statement (.addReg x y) :=
  twoNibbles (fun _ => rfl) (by rw [encode, fieldOP_wordXYN, fieldN_wordXYN]; rfl)
theorem EncodingRow.subReg (x : Nibble) (y : Nibble) : EncodingRow.Statement (.subReg x y) :=
  twoNibbles (fun _ => rfl) (by rw [encode, fieldOP_wordXYN, fieldN_wordXYN]; rfl)
theorem EncodingRow.shiftRight (x : Nibble) (y : Nibble) : EncodingRow.Statement (.shiftRight x y) :=
  twoNibbles (fun _ => rfl) (by rw [encode, fieldOP_wordXYN, fieldN_wordXYN]; rfl)
theorem EncodingRow.subRev (x : Nibble) (y : Nibble) : EncodingRow.Statement (.subRev x y) :=
  twoNibbles (fun _ => rfl) (by rw [encode, fieldOP_wordXYN, fieldN_wordXYN]; rfl)
theorem EncodingRow.shiftLeft (x : Nibble) (y : Nibble) : EncodingRow.Statement (.shiftLeft x y) :=
  twoNibbles (fun _ => rfl) (by rw [encode, fieldOP_wordXYN, fieldN_wordXYN]; rfl)
theorem EncodingRow.skipNeReg (x : Nibble) (y : Nibble) : EncodingRow.Statement (.skipNeReg x y) := by
  intro strict
  cases strict
  · rw [Instr.selectedBy, Instr.mask, if_neg (by decide), and_F000, encode, fieldOP_wordXYN]; rfl
  · rw [Instr.selectedBy, Instr.mask, if_pos rfl, and_F00F, encode, fieldOP_wordXYN, fieldN_wordXYN]; rfl
theorem EncodingRow.loadIndex (nnn : Address) : EncodingRow.Statement (.loadIndex nnn) :=
  highNibble (fun _ => rfl) (by rw [encode, fieldOP_wordNNN]; rfl)
theorem EncodingRow.jumpWithOffset (nnn : Address) : EncodingRow.Statement (.jumpWithOffset nnn) :=
  highNibble (fun _ => rfl) (by rw [encode, fieldOP_wordNNN]; rfl)
theorem EncodingRow.random (x : Nibble) (nn : Byte) : EncodingRow.Statement (.random x nn) :=
  highNibble (fun _ => rfl) (by rw [encode, fieldOP_wordXNN]; rfl)
theorem EncodingRow.draw (x : Nibble) (y : Nibble) (n : Nibble) : EncodingRow.Statement (.draw x y n) :=
  highNibble (fun _ => rfl) (by rw [encode, fieldOP_wordXYN]; rfl)
theorem EncodingRow.skipKeyDown (x : Nibble) : EncodingRow.Statement (.skipKeyDown x) :=
  lowByte (fun _ => rfl) (by rw [encode, fieldOP_wordXNN, fieldNN_wordXNN]; rfl)
theorem EncodingRow.skipKeyUp (x : Nibble) : EncodingRow.Statement (.skipKeyUp x) :=
  lowByte (fun _ => rfl) (by rw [encode, fieldOP_wordXNN, fieldNN_wordXNN]; rfl)
theorem EncodingRow.getDelay (x : Nibble) : EncodingRow.Statement (.getDelay x) :=
  lowByte (fun _ => rfl) (by rw [encode, fieldOP_wordXNN, fieldNN_wordXNN]; rfl)
theorem EncodingRow.waitKey (x : Nibble) : EncodingRow.Statement (.waitKey x) :=
  lowByte (fun _ => rfl) (by rw [encode, fieldOP_wordXNN, fieldNN_wordXNN]; rfl)
theorem EncodingRow.setDelay (x : Nibble) : EncodingRow.Statement (.setDelay x) :=
  lowByte (fun _ => rfl) (by rw [encode, fieldOP_wordXNN, fieldNN_wordXNN]; rfl)
theorem EncodingRow.setSound (x : Nibble) : EncodingRow.Statement (.setSound x) :=
  lowByte (fun _ => rfl) (by rw [encode, fieldOP_wordXNN, fieldNN_wordXNN]; rfl)
theorem EncodingRow.addIndex (x : Nibble) : EncodingRow.Statement (.addIndex x) :=
  lowByte (fun _ => rfl) (by rw [encode, fieldOP_wordXNN, fieldNN_wordXNN]; rfl)
theorem EncodingRow.fontAddr (x : Nibble) : EncodingRow.Statement (.fontAddr x) :=
  lowByte (fun _ => rfl) (by rw [encode, fieldOP_wordXNN, fieldNN_wordXNN]; rfl)
theorem EncodingRow.bcd (x : Nibble) : EncodingRow.Statement (.bcd x) :=
  lowByte (fun _ => rfl) (by rw [encode, fieldOP_wordXNN, fieldNN_wordXNN]; rfl)
theorem EncodingRow.storeRegs (x : Nibble) : EncodingRow.Statement (.storeRegs x) :=
  lowByte (fun _ => rfl) (by rw [encode, fieldOP_wordXNN, fieldNN_wordXNN]; rfl)
theorem EncodingRow.loadRegs (x : Nibble) : EncodingRow.Statement (.loadRegs x) :=
  lowByte (fun _ => rfl) (by rw [encode, fieldOP_wordXNN, fieldNN_wordXNN]; rfl)

end Sys2Proof.Laws
end

