-- ==== Sys2Proof/Tests/Slice0.lean ====
section
/-! SUPPORT. The model's own tests. Expected results are the spec's hand-derived vectors (95_test_vectors.md, V-...) and
worked examples; each test is about one step on a small state. Then one witness for each statement with hypotheses. -/

namespace Sys2Proof.Tests

open Sys2Proof Sys2Proof.Machine

/-! ### Small states -/

/-- Registers set. -/
def withRegs (l : List (Nibble × Byte)) (s : State) : State := l.foldl (fun s p => s.setReg p.1 p.2) s

/-- Bytes of memory set. -/
def withMem (l : List (Address × Byte)) (s : State) : State := l.foldl (fun s p => s.memWrite p.1 p.2) s

/-- Cells (row, column) lit. -/
def withLit (l : List (Nat × Nat)) (s : State) : State := s.setFb (l.foldl (fun f p => f.toggle p.1 p.2) s.fb)

/-- A policy set. -/
def withPolicy (p : Policy) (s : State) : State := { s with policy := p }

/-- The three intervals set, in units. -/
def withIntervals (i d t : Nat) (s : State) : State :=
  { s with tInstr := { acc := 0, interval := i }, tDelay := { acc := 0, interval := d }, tSound := { acc := 0, interval := t } }

def wrapPolicy : Policy := { Config.defaultPolicy with nibblePolicy := .wrap }

def fontPolicy (base : Address) : Policy := { Config.defaultPolicy with fontBase := some base }

/-- A stack of `n` entries. -/
def stackOf (n : Nat) : List Address := List.replicate n 0x202#12

/-- The step that runs a word placed at `pc`. -/
def runWord (w : Nat) (s : State) : Answer := step (s.withFetchWord 16 w)

/-- The answer is a next state with a property. -/
def shows (a : Answer) (p : State → Bool) : Bool :=
  match a with
  | .next t => p t
  | .fault _ => false
  | .refused _ => false

/-- Completed with the generic step from 0x200. -/
def ok202 (t : State) : Bool := t.pc == 0x202#12 && t.result == .ok

/-- The answer is a refusal. -/
def refuses (a : Answer) (r : Refusal) : Bool :=
  match a with
  | .next _ => false
  | .fault _ => false
  | .refused r' => r' == r

/-! ### Well-formedness: ill-formed launches and calls are refused (R211, R244) -/

def goodLaunch : Launch :=
  { image := [0x12#8, 0x00#8], entry := 0x200#12, extra := [], config := Config.default, freshPlatform := true }

def longLaunch : Launch := { goodLaunch with image := List.replicate 3585 1#8 }

def topLaunch : Launch := { goodLaunch with entry := 0xFFF#12 }

def zeroInstr : Launch := { goodLaunch with config := { Config.default with instrInterval := 0 } }

def zeroDelay : Launch := { goodLaunch with config := { Config.default with delayInterval := 0 } }

def zeroSound : Launch := { goodLaunch with config := { Config.default with soundInterval := 0 } }

theorem test_wf_good : goodLaunch.wellFormed = true := by decide
theorem test_wf_long : longLaunch.wellFormed = false := by decide +kernel
theorem test_wf_top : topLaunch.imageFits = false := by decide
theorem test_wf_zero_instr : zeroInstr.wellFormed = false := by decide
theorem test_wf_zero_delay : zeroDelay.wellFormed = false := by decide
theorem test_wf_zero_sound : zeroSound.wellFormed = false := by decide
theorem test_wf_call : (HostCall.reset zeroSound).wellFormed = false ∧ (HostCall.advance 5).wellFormed = true := by decide
theorem test_wf_instr : (Instr.draw 15#4 15#4 15#4).wellFormed = true ∧ (Instr.jump 0xFFF#12).wellFormed = true := by decide
theorem test_refuse_long : refuses (hostCall (.reset longLaunch) State.reset) .imageTooLong = true := by decide +kernel
theorem test_refuse_zero : refuses (hostCall (.reset zeroDelay) State.reset) .zeroInterval = true := by decide
theorem test_refuse_timer : refuses (advance 5 (withIntervals 0 1 1 State.reset)) .timerOutOfRange = true := by decide

/-- The default intervals in microseconds, and in units of 2 ms, where they are 1, 8 and 8 (R5, R211). -/
theorem test_time_unit :
    (Config.defaultIn ⟨1000, 1, by decide⟩).instrInterval = 2000 ∧ (Config.defaultIn ⟨1000, 1, by decide⟩).delayInterval = 16000 ∧
    (Config.defaultIn ⟨2000000, 1, by decide⟩).instrInterval = 1 ∧ (Config.defaultIn ⟨2000000, 1, by decide⟩).soundInterval = 8 ∧
    (TimeUnit.exact ⟨3000000, 1, by decide⟩ 2) = false ∧ Config.default.policy.timeUnit = .nanosecond := by decide

/-! ### Decoding (V-E): words written out from the table's patterns, bit by bit -/

/-- Every word of the list decodes to the instruction beside it. -/
def decodesAll (strict : Bool) (l : List (Word × Instr)) : Bool :=
  l.all fun p => decide (decode strict p.1 = .ok p.2)

/-- Every word of the list is unknown, and is carried by the error. -/
def unknownAll (strict : Bool) (l : List Word) : Bool :=
  l.all fun w => decide (decode strict w = .error (.unknownOpcode w))

theorem test_decode_0 : decodesAll false [(0b0000000011100000#16, .clearScreen), (0b0000000011101110#16, .ret)] = true := by
  decide
theorem test_decode_control : decodesAll false
    [(0b0001101010111100#16, .jump 0xABC#12), (0x10E0#16, .jump 0x0E0#12), (0b0010001000010000#16, .call 0x210#12),
      (0b1011111111111111#16, .jumpWithOffset 0xFFF#12)] = true := by decide
theorem test_decode_skip : decodesAll false
    [(0b0011101001111111#16, .skipEqImm 10#4 0x7F#8), (0b0100001100000000#16, .skipNeImm 3#4 0#8),
      (0b0101000100100000#16, .skipEqReg 1#4 2#4), (0x5127#16, .skipEqReg 1#4 2#4),
      (0b1001000100100000#16, .skipNeReg 1#4 2#4), (0x912F#16, .skipNeReg 1#4 2#4),
      (0b1110010010011110#16, .skipKeyDown 4#4), (0b1110010010100001#16, .skipKeyUp 4#4)] = true := by decide
theorem test_decode_load : decodesAll false
    [(0b0110101000000101#16, .loadImm 10#4 0x05#8), (0b0111000011111111#16, .addImm 0#4 0xFF#8),
      (0b1100001100001111#16, .random 3#4 0x0F#8)] = true := by decide
theorem test_decode_8 : decodesAll false
    [(0x8120#16, .copy 1#4 2#4), (0b1000110110110001#16, .or 13#4 11#4), (0x8122#16, .and 1#4 2#4),
      (0x8123#16, .xor 1#4 2#4), (0x8124#16, .addReg 1#4 2#4), (0b1000101010110101#16, .subReg 10#4 11#4),
      (0x8CA6#16, .shiftRight 12#4 10#4), (0x8BA7#16, .subRev 11#4 10#4), (0b1000110110101110#16, .shiftLeft 13#4 10#4)]
    = true := by decide
theorem test_decode_memory : decodesAll false
    [(0b1010001100000000#16, .loadIndex 0x300#12), (0xF21E#16, .addIndex 2#4), (0xF129#16, .fontAddr 1#4),
      (0xF033#16, .bcd 0#4), (0b1111001001010101#16, .storeRegs 2#4), (0b1111111101100101#16, .loadRegs 15#4)] = true := by
  decide
theorem test_decode_display : decodesAll false
    [(0b1101101010110101#16, .draw 10#4 11#4 5#4), (0xD120#16, .draw 1#4 2#4 0#4)] = true := by decide
theorem test_decode_timer : decodesAll false
    [(0b1111000100000111#16, .getDelay 1#4), (0xF50A#16, .waitKey 5#4), (0xF015#16, .setDelay 0#4),
      (0xF218#16, .setSound 2#4)] = true := by decide
theorem test_decode_unknown_0 : unknownAll false [0x0000#16, 0x00E1#16, 0x00FE#16, 0x0123#16] = true := by decide
theorem test_decode_unknown_8 :
    unknownAll false [0x8128#16, 0x8129#16, 0x812A#16, 0x812B#16, 0x812C#16, 0x812D#16, 0x812F#16] = true := by decide
theorem test_decode_unknown_EF : unknownAll false
    [0xE49F#16, 0xE4A0#16, 0xE400#16, 0xE4FF#16, 0xE41E#16, 0xF000#16, 0xF075#16, 0xF085#16, 0xF025#16, 0xF035#16,
      0xF045#16, 0xF11F#16, 0xF1FF#16, 0xFFFF#16] = true := by decide
theorem test_decode_strict : unknownAll true [0x5127#16, 0x912F#16] = true ∧
    decodesAll true [(0x5120#16, .skipEqReg 1#4 2#4), (0x9120#16, .skipNeReg 1#4 2#4)] = true := by decide

/-- The encoding examples of 95_test_vectors.md section 2.1. -/
theorem test_encode : encode (.draw 0xA#4 0xB#4 5#4) = 0xDAB5#16 ∧ encode (.loadImm 15#4 0xAB#8) = 0x6FAB#16 ∧
    encode (.storeRegs 3#4) = 0xF355#16 ∧ encode (.skipKeyUp 0#4) = 0xE0A1#16 ∧ encode (.jump 0x20C#12) = 0x120C#16 := by
  decide
theorem test_encode_bytes : bytesOfWord 0x120C#16 = (0x12#8, 0x0C#8) := by decide
theorem test_table_word : decodeTableWord 16 0x8AB5 = some (.subReg 10#4 11#4) ∧ decodeTableWord 16 0x0000 = none := by decide
theorem test_rows : rowSamples.length = 34 := by decide
/-- The assembler lines of program P1. -/
theorem test_asm : (Instr.loadImm 0#4 5#8).asm = "LD V0, 05" ∧ (Instr.addReg 1#4 0#4).asm = "ADD V1, V0" ∧
    (Instr.jump 0x20C#12).asm = "JP 20C" ∧ (Instr.loadRegs 2#4).asm = "LD V2, [I]" := by decide

/-! ### Bounded values, memory, stack (S1, V-A, V-S) -/

theorem test_addr_add : addrAdd 0xFFF#12 1 = 0#12 ∧ addrAdd 0#12 (-1) = 0xFFF#12 ∧ addrAdd 0xFFE#12 4 = 2#12 ∧
    addrAdd 0x200#12 4096 = 0x200#12 ∧ addrAdd 0x200#12 (-0x201) = 0xFFF#12 ∧ addrAdd 5#12 (-8198) = 0xFFF#12 := by decide
theorem test_wraps : nibbleWrap 16 = 0#4 ∧ nibbleWrap 0x1B = 0xB#4 ∧ nibbleWrap 255 = 15#4 ∧ addressWrap 4096 = 0#12 ∧
    addressWrap 0x1234 = 0x234#12 := by decide
theorem test_read2_wraps : (withMem [(0xFFF#12, 0x12#8), (0#12, 0x0C#8)] State.reset).memRead2 0xFFF#12 = 0x120C#16 := by
  decide
theorem test_read2_odd : (withMem [(0x201#12, 0x0C#8), (0x202#12, 0x60#8)] State.reset).memRead2 0x201#12 = 0x0C60#16 := by
  decide
theorem test_mem_canonical : (withMem [(5#12, 1#8), (3#12, 2#8), (5#12, 0#8)] State.reset).mem = [(3, 2#8)] := by decide
theorem test_pop_order : popTimes 2 ((State.reset.setStack [0x300#12]).setStack [0x300#12, 0x400#12]) =
    .ok ([0x400#12, 0x300#12], State.reset) := by decide +kernel
theorem test_fault_codes : (CycleResult.ok.code, (Fault.unknownOpcode 0#16).code, Fault.alreadyCrashed.code) = (0, 1, 6) := by
  decide

/-! ### Control transfer (V-C) -/

theorem test_jump : shows (runWord 0x1ABC State.reset) (fun t => t.pc == 0xABC#12 && t.result == .ok) = true := by decide
theorem test_call : shows (runWord 0x2210 (State.reset.setPc 0x204#12))
    (fun t => t.stack == [0x206#12] && t.pc == 0x210#12) = true := by decide
theorem test_call_full : shows (runWord 0x2210 (State.reset.setStack (stackOf 15)))
    (fun t => t.result == .err .stackOverflow && t.crashed && t.pc == 0x200#12 && t.stack == stackOf 15) = true := by decide
theorem test_return : shows (runWord 0x00EE ((State.reset.setPc 0x212#12).setStack [0x206#12]))
    (fun t => t.stack == [] && t.pc == 0x206#12) = true := by decide
theorem test_return_empty : shows (runWord 0x00EE State.reset)
    (fun t => t.result == .err .stackUnderflow && t.crashed && t.pc == 0x200#12) = true := by decide
theorem test_jump_offset_wraps : shows (runWord 0xBFFF (withRegs [(0#4, 2#8)] State.reset)) (fun t => t.pc == 1#12) = true := by
  decide
theorem test_jump_offset_v0 : shows (runWord 0xB2FE (withRegs [(0#4, 4#8), (2#4, 0x80#8)] State.reset))
    (fun t => t.pc == 0x302#12) = true := by decide

/-! ### Skips (V-K) -/

theorem test_skip_eq_imm : shows (runWord 0x332A (withRegs [(3#4, 0x2A#8)] State.reset)) (fun t => t.pc == 0x204#12) = true := by
  decide
theorem test_skip_wraps : shows (runWord 0x3000 (State.reset.setPc 0xFFE#12)) (fun t => t.pc == 2#12) = true := by decide
theorem test_skip_ne_imm : shows (runWord 0x432A (withRegs [(3#4, 0x2A#8)] State.reset)) ok202 = true := by decide
theorem test_skip_eq_reg : shows (runWord 0x5127 (withRegs [(1#4, 7#8), (2#4, 7#8)] State.reset))
    (fun t => t.pc == 0x204#12) = true := by decide
theorem test_skip_ne_reg : shows (runWord 0x9120 (withRegs [(1#4, 7#8), (2#4, 8#8)] State.reset))
    (fun t => t.pc == 0x204#12) = true := by decide
theorem test_skip_key_down : shows (runWord 0xE49E ((withRegs [(4#4, 0x0A#8)] State.reset).setKey 0xA#4 true))
    (fun t => t.pc == 0x204#12) = true := by decide
theorem test_skip_key_fault : shows (runWord 0xE49E (withRegs [(4#4, 0x1A#8)] State.reset))
    (fun t => t.result == .err (.nibbleOutOfRange 0x1A) && t.crashed && t.pc == 0x200#12) = true := by decide
theorem test_skip_key_up : shows (runWord 0xE4A1 ((withRegs [(4#4, 0x0A#8)] State.reset).setKey 0xA#4 true)) ok202 = true := by
  decide
theorem test_skip_key_wrap :
    shows (runWord 0xE4A1 (withPolicy wrapPolicy (withRegs [(4#4, 0x1A#8)] State.reset))) (fun t => t.pc == 0x204#12) = true := by
  decide

/-! ### Load, arithmetic, logic, shifts, random (V-L) -/

theorem test_load_imm : shows (runWord 0x6FAB State.reset) (fun t => t.reg 15#4 == 0xAB#8 && ok202 t) = true := by decide
theorem test_add_imm : shows (runWord 0x70FF (withRegs [(0#4, 5#8), (15#4, 1#8)] State.reset))
    (fun t => t.reg 0#4 == 4#8 && t.reg 15#4 == 1#8) = true := by decide
theorem test_copy : shows (runWord 0x8120 (withRegs [(2#4, 0x7E#8)] State.reset)) (fun t => t.reg 1#4 == 0x7E#8) = true := by
  decide
theorem test_or : shows (runWord 0x8DB1 (withRegs [(13#4, 0xF6#8), (11#4, 0x0A#8), (15#4, 1#8)] State.reset))
    (fun t => t.reg 13#4 == 0xFE#8 && t.reg 15#4 == 0#8) = true := by decide
theorem test_or_flag : shows (runWord 0x8F11 (withRegs [(15#4, 0xF0#8), (1#4, 0x0F#8)] State.reset))
    (fun t => t.reg 15#4 == 0#8) = true := by decide
theorem test_and : shows (runWord 0x8122 (withRegs [(1#4, 0xF0#8), (2#4, 0x3C#8), (15#4, 1#8)] State.reset))
    (fun t => t.reg 1#4 == 0x30#8 && t.reg 15#4 == 0#8) = true := by decide
theorem test_xor : shows (runWord 0x8123 (withRegs [(1#4, 0xF0#8), (2#4, 0x3C#8), (15#4, 1#8)] State.reset))
    (fun t => t.reg 1#4 == 0xCC#8 && t.reg 15#4 == 0#8) = true := by decide
theorem test_add_reg : shows (runWord 0x8124 (withRegs [(1#4, 0xC8#8), (2#4, 0x64#8)] State.reset))
    (fun t => t.reg 1#4 == 0x2C#8 && t.reg 15#4 == 1#8) = true := by decide
theorem test_add_reg_flag_source : shows (runWord 0x8AF4 (withRegs [(10#4, 0xFF#8), (15#4, 1#8)] State.reset))
    (fun t => t.reg 10#4 == 0#8 && t.reg 15#4 == 1#8) = true := by decide
theorem test_sub_reg : shows (runWord 0x8AB5 (withRegs [(10#4, 5#8), (11#4, 0x0A#8), (15#4, 1#8)] State.reset))
    (fun t => t.reg 10#4 == 0xFB#8 && t.reg 15#4 == 0#8) = true := by decide
theorem test_sub_reg_flag : shows (runWord 0x8F15 (withRegs [(15#4, 3#8), (1#4, 5#8)] State.reset))
    (fun t => t.reg 15#4 == 0#8) = true := by decide
theorem test_shift_right : shows (runWord 0x8CA6 (withRegs [(10#4, 0xFB#8), (12#4, 0x33#8)] State.reset))
    (fun t => t.reg 12#4 == 0x7D#8 && t.reg 15#4 == 1#8 && t.reg 10#4 == 0xFB#8) = true := by decide
theorem test_sub_rev : shows (runWord 0x8BA7 (withRegs [(11#4, 0x0A#8), (10#4, 0xFB#8)] State.reset))
    (fun t => t.reg 11#4 == 0xF1#8 && t.reg 15#4 == 1#8) = true := by decide
theorem test_shift_left : shows (runWord 0x812E (withRegs [(2#4, 0x41#8), (15#4, 1#8)] State.reset))
    (fun t => t.reg 1#4 == 0x82#8 && t.reg 15#4 == 0#8) = true := by decide
/-- V-L43: whatever the draw, and the platform is called once. -/
theorem test_random_zero_mask : ∃ t, runWord 0xC300 State.reset = .next t ∧ t.reg 3#4 = 0#8 ∧ t.draws = 1 := by
  refine ⟨_, rfl, ?_, rfl⟩
  show Config.randomByte 0 &&& 0#8 = 0#8
  simp

/-! ### Index register and memory (V-M) -/

theorem test_load_index : shows (runWord 0xA300 State.reset) (fun t => t.index == 0x300#12 && ok202 t) = true := by decide
theorem test_add_index : shows (runWord 0xF21E ((withRegs [(2#4, 2#8)] State.reset).setIndex 0xFFF#12))
    (fun t => t.index == 1#12 && t.reg 15#4 == 0#8) = true := by decide
theorem test_font : shows (runWord 0xF129 (withPolicy (fontPolicy 0xFF0#12) (withRegs [(1#4, 15#8)] State.reset)))
    (fun t => t.index == 0x03B#12) = true := by decide
theorem test_font_fault : shows (runWord 0xF129 (withPolicy (fontPolicy 0x050#12) (withRegs [(1#4, 0x10#8)] State.reset)))
    (fun t => t.result == .err (.nibbleOutOfRange 0x10) && t.index == 0#12 && t.pc == 0x200#12) = true := by decide
theorem test_bcd : shows (runWord 0xF733 ((withRegs [(7#4, 0x7B#8)] State.reset).setIndex 0xFFE#12))
    (fun t => t.memRead 0xFFE#12 == 1#8 && t.memRead 0xFFF#12 == 2#8 && t.memRead 0#12 == 3#8 && t.index == 0xFFE#12) = true := by
  decide
theorem test_store_regs : shows
    (runWord 0xF355 ((withRegs [(0#4, 0xA0#8), (1#4, 0xA1#8), (2#4, 0xA2#8), (3#4, 0xA3#8)] State.reset).setIndex 0xFFE#12))
    (fun t => t.memRead 0xFFE#12 == 0xA0#8 && t.memRead 0xFFF#12 == 0xA1#8 && t.memRead 0#12 == 0xA2#8 &&
      t.memRead 1#12 == 0xA3#8 && t.index == 2#12) = true := by decide
theorem test_load_regs : shows
    (runWord 0xF265 (withMem [(0x300#12, 2#8), (0x301#12, 5#8), (0x302#12, 4#8)] (withRegs [(3#4, 0x77#8)]
      (State.reset.setIndex 0x300#12))))
    (fun t => t.reg 0#4 == 2#8 && t.reg 1#4 == 5#8 && t.reg 2#4 == 4#8 && t.reg 3#4 == 0x77#8 && t.index == 0x303#12) = true := by
  decide

/-! ### Display (V-D) -/

theorem test_clear : shows (runWord 0x00E0 (withRegs [(15#4, 1#8)] (withLit [(5, 7), (31, 63)] State.reset)))
    (fun t => t.fb == Framebuffer.off && t.reg 15#4 == 1#8 && ok202 t) = true := by decide +kernel
/-- V-D1: the first draw. -/
theorem test_draw_clips : shows
    (runWord 0xD011 (withMem [(0x20E#12, 0xF0#8)] (withRegs [(0#4, 0x3E#8), (1#4, 0x1F#8)] (State.reset.setIndex 0x20E#12))))
    (fun t => t.fb == (withLit [(31, 62), (31, 63)] State.reset).fb && t.reg 15#4 == 0#8 && t.index == 0x20E#12) = true := by
  decide +kernel
/-- V-D3: a collision. -/
theorem test_draw_collides : shows
    (runWord 0xD011 (withLit [(0, 0)] (withMem [(0x300#12, 0x80#8)] (State.reset.setIndex 0x300#12))))
    (fun t => t.fb == Framebuffer.off && t.reg 15#4 == 1#8) = true := by decide +kernel

/-! ### Timers, keys, the cycle (V-T, V-X) -/

theorem test_get_delay : shows (runWord 0xF107 (State.reset.setDt 3#8)) (fun t => t.reg 1#4 == 3#8 && t.dt == 3#8) = true := by
  decide
theorem test_set_delay : shows (runWord 0xF015 (withRegs [(0#4, 3#8)] State.reset)) (fun t => t.dt == 3#8 && t.st == 0#8) = true := by
  decide
theorem test_set_sound : shows (runWord 0xF218 (withRegs [(2#4, 0x1E#8)] State.reset)) (fun t => t.st == 0x1E#8 && t.dt == 0#8) = true := by
  decide
theorem test_wait_key : shows (runWord 0xF50A State.reset) (fun t => t.awaitKey == some 5#4 && ok202 t) = true := by decide
theorem test_wait_poll : step (State.reset.setAwait (some 5#4)) = .next (State.reset.setAwait (some 5#4)) := by rfl
theorem test_wait_completes :
    shows (step ((withRegs [(15#4, 1#8)] State.reset).setAwait (some 15#4) |>.setReleased (some 0#4)))
      (fun t => t.reg 15#4 == 0#8 && t.awaitKey == none && t.released == none && t.pc == 0x200#12) = true := by decide
theorem test_zero_memory_crashes : shows (step State.reset)
    (fun t => t.result == .err (.unknownOpcode 0#16) && t.crashed && t.pc == 0x200#12) = true := by decide
theorem test_crashed_first : shows (step ((State.reset.crash.setAwait (some 2#4)).setReleased (some 7#4)))
    (fun t => t.result == .err .alreadyCrashed && t.released == some 7#4 && t.reg 2#4 == 0#8) = true := by decide

/-! ### The scheduler and the host's calls (V-H, V-T) -/

/-- V-H5: five cycles, three delay ticks, two sound ticks. -/
theorem test_advance : shows (advance 15 (withMem [(0x200#12, 0x12#8)] ((withIntervals 3 5 7 State.reset).setDt 9#8 |>.setSt 9#8)))
    (fun t => t.dt == 6#8 && t.st == 7#8 && t.tInstr.acc == 0 && t.tDelay.acc == 0 && t.tSound.acc == 1 && t.result == .ok) = true := by
  decide
/-- V-H7: one cycle, one unit of time (in ms). -/
theorem test_one_tick : shows
    (advanceOneInstructionTick ((((withMem [(0x200#12, 0x12#8)] State.reset).setTimer .instr ⟨1, 2⟩).setTimer .delay
      ⟨5, 16⟩).setTimer .sound ⟨5, 16⟩))
    (fun t => t.tInstr.acc == 0 && t.tDelay.acc == 6 && t.tSound.acc == 6 && t.result == .ok) = true := by decide
/-- V-H10: a crashed machine. -/
theorem test_advance_crashed : shows (advance 16 ((withIntervals 2 16 16 State.reset).crash.setDt 3#8))
    (fun t => t.result == .err .alreadyCrashed && t.dt == 3#8 && t.tInstr.acc == 0 && t.tDelay.acc == 2) = true := by decide
/-- V-H6: saturation. -/
theorem test_saturates : shows (advance 32 (withMem [(0x200#12, 0x12#8)] ((withIntervals 2 16 16 State.reset).setDt 1#8)))
    (fun t => t.dt == 0#8 && t.st == 0#8) = true := by decide
/-- V-T6: the newest release wins; V-T7: a release of a key that is up. -/
theorem test_key_up : shows (hostCall (.keyUp 2#4) ((State.reset.setKey 2#4 true).setReleased (some 1#4)))
    (fun t => t.released == some 2#4 && !t.key 2#4) = true := by decide
theorem test_key_up_of_up : hostCall (.keyUp 4#4) State.reset = .next State.reset := by rfl
theorem test_reset_call : shows (hostCall (.reset goodLaunch) (State.reset.crash.setDt 9#8))
    (fun t => t.memRead 0x200#12 == 0x12#8 && !t.crashed && t.dt == 0#8 && t.pc == 0x200#12) = true := by decide
theorem test_queue : shows (step (State.reset.setQueue [.keyDown 3#4, .runOneCycle]))
    (fun t => t.key 3#4 && t.hostQueue == [.runOneCycle] && !t.crashed) = true := by decide

/-! ### Witnesses: for each statement with hypotheses, a state and operands that meet them, at the boundaries -/

theorem witness_DecodeAfterEncode : (Instr.draw 15#4 15#4 15#4).wellFormed = true := by decide

theorem witness_EncodeAfterDecode : decode true 0x9120#16 = .ok (.skipNeReg 1#4 2#4) ∧
    decode false 0x912F#16 = .ok (.skipNeReg 1#4 2#4) ∧ encode (.skipNeReg 1#4 2#4) = 0x9120#16 := by decide

theorem witness_ExactlyOneRowOrUnknown :
    (rowSamples.filter (·.selectedBy false 0x912F#16)).length = 1 ∧
    (rowSamples.filter (·.selectedBy true 0x912F#16)).length = 0 := by decide

theorem witness_ValidatedConstructors : nibbleChecked 15 = .ok 15#4 ∧ nibbleChecked 16 = .error (.nibbleOutOfRange 16) ∧
    addressChecked 4095 = .ok 0xFFF#12 ∧ addressChecked 4096 = .error (.addressOutOfRange 4096) := by decide

theorem witness_RegisterValueAsNibble : nibOfReg .fault 15#8 = .ok 15#4 ∧ nibOfReg .fault 16#8 = .error (.nibbleOutOfRange 16) ∧
    nibOfReg .wrap 16#8 = .ok 0#4 := by decide

theorem witness_StackIsLifo : (State.reset.setStack (stackOf 14)).stack.length < 15 ∧
    (State.reset.setStack (stackOf 15)).stack.length = 15 ∧ State.reset.stack = [] ∧ (stackOf 15).length ≤ 15 := by decide

theorem witness_memory_wf : (withMem [(0xFFF#12, 1#8), (0#12, 2#8)] State.reset).mem.wf = true := by decide

theorem witness_FetchIsBigEndianAndCoherent : (0#12 : Address).toNat = ((State.reset.setPc 0xFFF#12).pc.toNat + 1) % 4096 := by
  decide

theorem witness_ResetLoadsTheImage_fits : goodLaunch.image.length ≤ 4096 - goodLaunch.entry.toNat ∧
    0 < goodLaunch.config.instrInterval ∧ 0 < goodLaunch.config.delayInterval ∧ 0 < goodLaunch.config.soundInterval ∧
    goodLaunch.freshPlatform = true := by decide

/-- A launch with a glyph byte below the image, an address written twice, and one that the image overwrites. -/
def extraLaunch : Launch := { goodLaunch with extra := [(0x050#12, 1#8), (0x050#12, 0xF0#8), (0x200#12, 7#8)] }

theorem witness_ResetLoadsTheImage_extra :
    extraLaunch.extra = [(0x050#12, 1#8)] ++ (0x050#12, 0xF0#8) :: [(0x200#12, 7#8)] ∧
    (∀ v', (0x050#12, v') ∉ [((0x200#12 : Address), (7#8 : Byte))]) ∧
    ∀ i, i < extraLaunch.image.length → (0x050#12 : Address) ≠ addrAdd extraLaunch.entry i := by
  refine ⟨rfl, fun v' h => ?_, fun i h => ?_⟩
  · simp at h
  · have : i = 0 ∨ i = 1 := by change i < 2 at h; omega
    rcases this with rfl | rfl <;> decide

/-- The extra bytes stand in memory, the image over them (R244, R283). -/
theorem test_reset_extra : shows (hostCall (.reset extraLaunch) State.reset)
    (fun t => t.memRead 0x050#12 == 0xF0#8 && t.memRead 0x200#12 == 0x12#8 && t.memRead 0x051#12 == 0#8) = true := by decide

theorem witness_ResetLoadsTheImage_full : (List.replicate 3584 (1#8 : Byte)).length ≤ 4096 - (0x200#12 : Address).toNat := by
  rw [List.length_replicate]; decide

theorem witness_ResetLoadsTheImage_long : 4096 - longLaunch.entry.toNat < longLaunch.image.length := by
  show 4096 - 512 < (List.replicate 3585 (1#8 : Byte)).length
  rw [List.length_replicate]; decide

theorem witness_ResetLoadsTheImage_zero : zeroSound.image.length ≤ 4096 - zeroSound.entry.toNat ∧
    (zeroSound.config.instrInterval = 0 ∨ zeroSound.config.delayInterval = 0 ∨ zeroSound.config.soundInterval = 0) := by decide

/-- A state whose next cycle fetches `JP 200`. -/
def jumpState : State := withMem [(0x200#12, 0x12#8)] State.reset

theorem witness_StepRunsDecodedInstruction : jumpState.hostQueue = [] ∧ jumpState.crashed = false ∧
    jumpState.awaitKey = none ∧ decode jumpState.policy.strict59 (wordOfBytes (jumpState.memRead jumpState.pc)
      (jumpState.memRead (addrAdd jumpState.pc 1))) = .ok (.jump 0x200#12) ∧
    (State.reset.setQueue [.runOneCycle]).hostQueue = .runOneCycle :: [] := by decide

theorem witness_PlacedWordIsRunNext : State.reset.mem.wf = true ∧ 0xFF65 < 65536 ∧
    decode State.reset.policy.strict59 (BitVec.ofNat 16 0xFF65) = .ok (.loadRegs 15#4) := by decide

theorem witness_UnknownOpcodeCrashes : State.reset.fetches ∧
    ∀ i, decode State.reset.policy.strict59 (fetch State.reset) ≠ .ok i := by
  refine ⟨⟨rfl, rfl, rfl⟩, fun i h => ?_⟩
  have e : decode State.reset.policy.strict59 (fetch State.reset) = .error (.unknownOpcode 0#16) := by decide
  rw [e] at h; cases h

theorem witness_CrashedCycleAnswersOnly : State.reset.crash.hostQueue = [] ∧ State.reset.crash.crashed = true := by decide

theorem witness_KeyWait : let s := State.reset.setAwait (some 15#4)
    s.hostQueue = [] ∧ s.crashed = false ∧ s.awaitKey = some 15#4 ∧ s.released = none ∧
    (s.setReleased (some 0#4)).released = some 0#4 := by decide

theorem witness_RaiseWritesNothingElse : ∃ t, exec .ret State.reset = .next t ∧ t.result = .err .stackUnderflow :=
  ⟨_, rfl, rfl⟩

theorem witness_InstructionFaultsExactly : (State.reset.setStack (stackOf 15)).stack.length ≤ 15 ∧
    (Instr.call 0#12).raises (State.reset.setStack (stackOf 15)) .stackOverflow ∧
    (Instr.ret).raises State.reset .stackUnderflow ∧
    (Instr.fontAddr 0#4).raises (withRegs [(0#4, 16#8)] State.reset) (.nibbleOutOfRange 16) := by
  refine ⟨by decide, ⟨rfl, rfl⟩, ⟨rfl, rfl⟩, ?_⟩
  simp only [Instr.raises]; decide

theorem witness_CompletedInstructionStepsPc : ∃ t, exec .clearScreen (State.reset.setPc 0xFFF#12) = .next t ∧
    t.result = .ok ∧ Instr.clearScreen.pcRule = .next ∧ t.pc = 1#12 := ⟨_, rfl, rfl, rfl, rfl⟩

theorem witness_CompletedInstructionStepsPc_skip : ∃ t, exec (.skipEqImm 0#4 0#8) State.reset = .next t ∧ t.result = .ok ∧
    (Instr.skipEqImm 0#4 0#8).pcRule = .skip ∧ t.pc = 0x204#12 := ⟨_, rfl, rfl, rfl, rfl⟩

theorem witness_InstructionsWriteOnlyTheirState : ∃ t, exec (.loadRegs 3#4) State.reset = .next t ∧ t.result = .ok ∧
    ¬ (Instr.loadRegs 3#4).writesReg 4#4 := ⟨_, rfl, rfl, by simp [Instr.writesReg]⟩

theorem witness_InstructionsWriteOnlyTheirState_store : ∃ t, exec (.storeRegs 1#4) (State.reset.setIndex 0xFFF#12) = .next t ∧
    (0#12 : Address) ∈ (Instr.storesTo (.storeRegs 1#4) (State.reset.setIndex 0xFFF#12)) ∧
    (1#12 : Address) ∉ (Instr.storesTo (.storeRegs 1#4) (State.reset.setIndex 0xFFF#12)) := ⟨_, rfl, by decide, by decide⟩

theorem witness_FlagRegisterRule : (Instr.draw 0#4 0#4 0#4).setsFlag = true ∧ (Instr.loadImm 14#4 0#8).setsFlag = false ∧
    ¬ (Instr.loadImm 14#4 0#8).writesReg 15#4 := by simp [Instr.setsFlag, Instr.writesReg]

theorem witness_CallPushesAndJumps : (State.reset.setStack (stackOf 14)).stack.length < 15 ∧
    (State.reset.setStack (stackOf 15)).stack.length = 15 := by decide

theorem witness_ReturnPopsAndResumes : (State.reset.setStack [0x206#12]).stack = [] ++ [0x206#12] ∧ State.reset.stack = [] := by
  decide

theorem witness_KeySkips : ((withRegs [(4#4, 15#8)] State.reset).reg 4#4).toNat ≤ 15 ∧
    (15#4 : Nibble).toNat = ((withRegs [(4#4, 15#8)] State.reset).reg 4#4).toNat % 16 ∧
    (withPolicy wrapPolicy (withRegs [(4#4, 0x1A#8)] State.reset)).policy.nibblePolicy = .wrap := by decide

theorem witness_NibbleFaultOfThreeInstructions : 15 < ((withRegs [(4#4, 16#8)] State.reset).reg 4#4).toNat ∧
    State.reset.policy.nibblePolicy = .fault := by decide

theorem witness_AddRegSumAndCarry : 255 < (0xFF#8 : Byte).toNat + (1#8 : Byte).toNat ∧
    (0x80#8 : Byte).toNat + (0x7F#8 : Byte).toNat ≤ 255 ∧ (1#4 : Nibble) ≠ 15#4 := by decide

theorem witness_SubtractDifferenceAndBorrow : (7#8 : Byte).toNat ≤ (7#8 : Byte).toNat ∧ (0#8 : Byte).toNat < (1#8 : Byte).toNat := by
  decide

theorem witness_FontAddrPointsAtGlyph : ((withRegs [(1#4, 15#8)] State.reset).reg 1#4).toNat ≤ 15 ∧
    (withPolicy wrapPolicy State.reset).policy.nibblePolicy = .wrap := by decide

theorem witness_StoreAndLoadRegs : (15#4 : Nibble).toNat ≤ (15#4 : Nibble).toNat ∧ (2#4 : Nibble).toNat < (3#4 : Nibble).toNat ∧
    (0xFFD#12 : Address) ∉ accessAddresses (State.reset.setIndex 0xFFE#12) 3 ∧
    (0#12 : Address) ∈ accessAddresses (State.reset.setIndex 0xFFE#12) 3 := by decide

/-- The draw of V-D3, in a state with its sprite row and cell (0, 0) lit. -/
def drawState : State := withLit [(0, 0)] (withMem [(0x300#12, 0x80#8)] (State.reset.setIndex 0x300#12))

theorem witness_DrawXorsSpriteAndReportsCollision :
    [0x80#8] = (List.range (1#4 : Nibble).toNat).map (fun (i : Nat) => drawState.memRead (addrAdd drawState.index i)) ∧
    drawState.fb.cell 0 0 = true ∧ drawnCell 0#8 0#8 [0x80#8] drawState.fb 0 0 = false ∧
    spriteBit 0 0 [] 0 0 = false := by decide +kernel

theorem witness_KeyEvents : (State.reset.setKey 15#4 true).key 15#4 = true ∧ State.reset.key 15#4 = false := by decide

theorem witness_TimerTicksAndKeepsRemainder : (⟨1, 3⟩ : Timer).interval ≤ (⟨1, 3⟩ : Timer).acc + 2 ∧
    (⟨1, 3⟩ : Timer).acc + 1 < (⟨1, 3⟩ : Timer).interval := by decide

theorem witness_FaultDropsLaterTicksOnly : State.reset.tInstr.fires 2000000 = true ∧
    State.reset.policy.tickOrder.toList = [] ++ .instr :: [.delay, .sound] ∧
    ∃ u, runOneCycle (advanceTimers 2000000 State.reset) = .next u ∧ u.result = .err (.unknownOpcode 0#16) :=
  ⟨by decide, rfl, _, rfl, rfl⟩

/-- Three timers that tick together over memory of zeros, in a given order, with `DT` and `ST` 9 (V-H9). -/
def lateState (o : TickOrder) : State :=
  ((withPolicy { Config.defaultPolicy with tickOrder := o } (withIntervals 4 4 4 State.reset)).setDt 9#8).setSt 9#8

theorem witness_FaultDropsLaterTicksOnly_middle : (lateState .delayInstrSound).tInstr.fires 4 = true ∧
    (lateState .delayInstrSound).tDelay.fires 4 = true ∧
    (lateState .delayInstrSound).policy.tickOrder.toList = [.delay] ++ .instr :: [.sound] ∧
    ∃ u, runOneCycle (((advanceTimers 4 (lateState .delayInstrSound)).setDt 8#8).setResult .ok) = .next u ∧
      u.result = .err (.unknownOpcode 0#16) := ⟨by decide, by decide, rfl, _, rfl, rfl⟩

theorem witness_FaultDropsLaterTicksOnly_last : (lateState .soundDelayInstr).tInstr.fires 4 = true ∧
    (lateState .soundDelayInstr).policy.tickOrder.toList = [.sound, .delay] ++ .instr :: [] := by decide

/-- R217: the effects before the instruction stay, those after it are lost, in the four positions. -/
theorem test_fault_orders : [TickOrder.instrSoundDelay, .delayInstrSound, .soundInstrDelay, .delaySoundInstr].map
    (fun o => shows (advanceStep 4 (lateState o)) fun t => t.crashed &&
      (t.dt, t.st) == match o with
        | .delayInstrSound => (8#8, 9#8)
        | .soundInstrDelay => (9#8, 8#8)
        | .delaySoundInstr => (8#8, 8#8)
        | _ => (9#8, 9#8)) = [true, true, true, true] := by decide

theorem witness_timersInRange : State.reset.timersInRange := by
  unfold State.timersInRange Timer.inRange; decide

theorem witness_AdvanceChunks : shows (advance 5 (withIntervals 2 16 16 jumpState)) (fun t => t.result == .ok) = true := by decide

theorem witness_OneTickRunsOneCycle : State.reset.tInstr.untilNext < State.reset.tDelay.untilNext ∧
    State.reset.tInstr.untilNext < State.reset.tSound.untilNext := by decide

/-- Reset answers next states, meets the invariant, and its fields are plain: the witness for the step's invariant. -/
theorem witness_StepKeepsInvariant : (jumpState.setQueue [.advance 5]).Inv ∧
    ∃ t, step jumpState = .next t ∧ t.result = .ok := by
  refine ⟨⟨by decide, by decide, witness_timersInRange, fun f h => by cases h⟩, _, rfl, rfl⟩

theorem witness_CrashIsTerminal : State.reset.crash.crashed = true ∧
    (∀ c, (State.reset.crash.setQueue [.advance 5]).hostQueue.head? = some c → c.isReset = false) ∧
    ∃ t, step State.reset.crash = .next t := by
  refine ⟨rfl, fun c h => ?_, _, rfl⟩
  cases h; rfl

/-- A jump to itself is final; the zeroed memory is not (R291). -/
theorem witness_final : jumpState.final ∧ jumpState.safe ∧ ¬ State.reset.final := by
  refine ⟨⟨by decide, rfl, rfl⟩, rfl, fun h => ?_⟩
  have e : decode State.reset.policy.strict59 (fetch State.reset) = .error (.unknownOpcode 0#16) := by decide
  have := h.1
  rw [e] at this; cases this

end Sys2Proof.Tests
end

section
/-! The obligations of 20_memory.md, each assembled from the memory laws and the frame lemmas above. -/
namespace Sys2Proof.Proofs

open Sys2Proof Sys2Proof.Machine

/-- A one-byte write leaves every byte of memory but its own as it was (R53). -/
theorem memUnchangedExcept_memWrite (s : State) (a : Address) (v : Byte) :
    MemUnchangedExcept [a] s (s.memWrite a v) :=
  fun _ hb => State.memRead_memWrite_ne s v (List.ne_of_not_mem_cons hb)

/-- Settles O10: the read-back is the law of the canonical memory, the bytes' frame that of any memory, and the write
touches no part of the state but memory. -/
theorem memoryWriteSetsOneByte : Obligations.MemoryWriteSetsOneByte := by
  intro s a v
  refine ⟨fun hwf => ?_, ?_, ?_⟩
  · exact State.memRead_memWrite_self hwf a v
  · exact memUnchangedExcept_memWrite s a v
  · exact unchanged_memWrite s a v

end Sys2Proof.Proofs
end

section
/-! The obligations of 40_values_and_stack.md: ring addition by its law, the validated constructors by one equation per
side of each bound. -/
namespace Sys2Proof.Proofs

open Sys2Proof Sys2Proof.Machine

theorem addressChecked_ok {raw : Nat} (h : raw ≤ 4095) : addressChecked raw = .ok (BitVec.ofNat 12 raw) := if_pos h

theorem addressChecked_error {raw : Nat} (h : ¬ raw ≤ 4095) :
    addressChecked raw = .error (.addressOutOfRange raw) := if_neg h

/-- Settles O6: the integer law of ring addition, which holds for negative offsets too. -/
theorem ringAdditionWraps : Obligations.RingAdditionWraps := addrAdd_toNat_int

/-- Settles O7: within its bound a raw value fits the constructor's width, so the truncation changes nothing; above the
bound the constructor's test fails. -/
theorem validatedConstructors : Obligations.ValidatedConstructors := by
  intro raw
  refine ⟨fun hle => ?_, fun hlt => ?_, fun hle => ?_, fun hlt => ?_⟩
  · exact ⟨_, nibbleChecked_ok hle, (BitVec.toNat_ofNat raw _).trans (Nat.mod_eq_of_lt (by omega))⟩
  · exact nibbleChecked_error (Nat.not_le_of_lt hlt)
  · exact ⟨_, addressChecked_ok hle, (BitVec.toNat_ofNat raw _).trans (Nat.mod_eq_of_lt (by omega))⟩
  · exact addressChecked_error (Nat.not_le_of_lt hlt)

end Sys2Proof.Proofs
end

section
/-! The obligations of 41_cycle.md: with no host call lined up a step is a cycle, and each case of a cycle has its
equation among the laws above. -/
namespace Sys2Proof.Proofs

open Sys2Proof Sys2Proof.Machine

/-- A step with no host call lined up is a cycle (R245; log 3). -/
theorem step_eq_runOneCycle {s : State} (h : s.hostQueue = []) : step s = runOneCycle s := by
  simp [step, performNext, h]

/-- A word that decodes to no instruction is itself the one that `UnknownOpcode` names (R125). -/
theorem decode_unknownOpcode {strict : Bool} {w : Word} (h : ∀ i, decode strict w ≠ .ok i) :
    decode strict w = .error (.unknownOpcode w) := by
  cases hd : decode strict w with
  | ok i => exact absurd hd (h i)
  | error e => cases e with
    | unknownOpcode w' => rw [decode_error hd]

/-- A poll that finds no release only returns `Ok` (R122): what it writes back to `released` already stood there. -/
theorem pollKey_none {s : State} (k : Nibble) (h : s.released = none) : pollKey k s = .next (s.setResult .ok) := by
  have hs : s.setReleased none = s := h ▸ rfl
  rcases pollKey_cases k s with ⟨_, hp⟩ | ⟨key, hkey, _⟩
  · rwa [hs] at hp
  · rw [h] at hkey; cases hkey

/-- Settles O17: the cycle raises `UnknownOpcode` of the word fetched, and a raise writes the crash latch and the result
only. -/
theorem unknownOpcodeCrashes : Obligations.UnknownOpcodeCrashes := by
  intro s ⟨hqueue, hcrashed, hawait⟩ hdecode
  rw [step_eq_runOneCycle hqueue, runOneCycle_unknown hcrashed hawait (decode_unknownOpcode hdecode)]
  exact raise_spec _ s

/-- Settles O19: the cycle is a poll, and a poll that finds no release writes the result only. -/
theorem keyWaitPollDoesNothing : Obligations.KeyWaitPollDoesNothing := by
  intro s k hqueue hcrashed hawait hreleased
  rw [step_eq_runOneCycle hqueue, runOneCycle_poll hcrashed hawait, pollKey_none k hreleased]
  exact ⟨_, rfl, rfl, unchanged_setResult s .ok⟩

end Sys2Proof.Proofs
end

section
/-! The obligations of 42_control_flow.md: every control transfer that completes ends in `goTo`, whose effect is said
once; `Return` first removes the entry it resumes at. -/
namespace Sys2Proof.Proofs

open Sys2Proof Sys2Proof.Machine

/-- Everything a control transfer does (R128, R130). -/
theorem goTo_spec (a : Address) (s : State) :
    ∃ t, goTo a s = .next t ∧ t.pc = a ∧ t.result = .ok ∧ UnchangedExcept [.pc, .result] s t := by
  refine ⟨_, goTo_eq a s, rfl, rfl, fun p hp => ?_⟩
  cases p <;> simp_all [Part.same]

/-- `Return` with a top entry is a control transfer to it, from the state without it (R142). -/
theorem exec_ret_pop {s : State} {l : List Address} {a : Address} (h : s.stack = l ++ [a]) :
    exec .ret s = goTo a (s.setStack l) := by
  simp only [exec, execRet, pop_ok h]

/-- `Return` on an empty stack raises (R142, R254). -/
theorem exec_ret_empty {s : State} (h : s.stack = []) : exec .ret s = raise .stackUnderflow s := by
  simp only [exec, execRet, pop_error h]

/-- Settles O27: `Jump` is the control transfer to its target. -/
theorem jumpGoesToTarget : Obligations.JumpGoesToTarget := goTo_spec

/-- Settles O29: the stack that `Return` leaves is the one `pop` left, since the transfer after it writes `pc` and the
result only; the empty stack is the raise. -/
theorem returnPopsAndResumes : Obligations.ReturnPopsAndResumes := by
  refine fun s => ⟨fun l a hstack => ?_, fun hempty => ?_⟩
  · rw [exec_ret_pop hstack]
    obtain ⟨t, hgoTo, hpc, hresult, hframe⟩ := goTo_spec a (s.setStack l)
    have hkept : UnchangedExcept [.stack, .pc, .result] s (s.setStack l) :=
      (unchanged_setStack s l).mono (by simp)
    exact ⟨t, hgoTo, hframe .stack (by decide), hpc, hresult, hkept.trans (hframe.mono (by simp))⟩
  · rw [exec_ret_empty hempty]
    exact raise_spec _ s

/-- Settles O30: `JumpWithOffset` is the control transfer to a ring sum, whose value is the law of ring addition. -/
theorem jumpWithOffsetAddsRegisterZero : Obligations.JumpWithOffsetAddsRegisterZero := by
  intro nnn s
  obtain ⟨t, hgoTo, hpc, hresult, hframe⟩ := goTo_spec (addrAdd nnn (s.reg 0#4).toNat) s
  exact ⟨t, hgoTo, hpc ▸ addrAdd_toNat nnn _, hresult, hframe⟩

end Sys2Proof.Proofs
end

section
/-! The obligation of 44_load_alu.md about logic: each logic operation is one write of a result and then of the flag, so
all three are read off the lemma about that write. -/
namespace Sys2Proof.Proofs

open Sys2Proof Sys2Proof.Machine

/-- The pseudocode of `Or` (R164). -/
theorem exec_or (s : State) (x y : Nibble) :
    exec (.or x y) s = stepNext (s.setRegFlag x (s.reg x ||| s.reg y) 0#8) := rfl

/-- The pseudocode of `And` (R165). -/
theorem exec_and (s : State) (x y : Nibble) :
    exec (.and x y) s = stepNext (s.setRegFlag x (s.reg x &&& s.reg y) 0#8) := rfl

/-- The pseudocode of `Xor` (R166). -/
theorem exec_xor (s : State) (x y : Nibble) :
    exec (.xor x y) s = stepNext (s.setRegFlag x (s.reg x ^^^ s.reg y) 0#8) := rfl

/-- Settles O35: the flag is written after the result, so it ends as 0 also when it is the destination. -/
theorem logicResetsFlag : Obligations.LogicResetsFlag := by
  intro s x y
  rw [exec_or, exec_and, exec_xor]
  refine ⟨?or, ?and, ?xor⟩
  case or => exact setRegFlag_spec s x (s.reg x ||| s.reg y) 0#8
  case and => exact setRegFlag_spec s x (s.reg x &&& s.reg y) 0#8
  case xor => exact setRegFlag_spec s x (s.reg x ^^^ s.reg y) 0#8

end Sys2Proof.Proofs
end

section
/-! The obligation of 46_display.md about the clear: one write of the framebuffer and then the generic `pc` step. -/
namespace Sys2Proof.Proofs

open Sys2Proof Sys2Proof.Machine

theorem unchanged_setFb (s : State) (fb : Framebuffer) : UnchangedExcept [.fb] s (s.setFb fb) := by
  intro p hp
  cases p <;> simp_all [Part.same]

/-- The pseudocode of `ClearScreen` (R190), with the platform's part of it written out (R233). -/
theorem exec_clearScreen (s : State) : exec .clearScreen s = stepNext (s.setFb Framebuffer.off) := rfl

/-- Settles O46: the `pc` step after the clear writes `pc` and the result only, so the framebuffer stays the dark one and
the frame is that of the two writes together. -/
theorem clearScreenTurnsAllOff : Obligations.ClearScreenTurnsAllOff := by
  intro s
  rw [exec_clearScreen]
  obtain ⟨t, hstep, hcompleted, hframe⟩ := stepNext_spec (s.setFb Framebuffer.off)
  have hcells : ∀ r c, t.fb.cell r c = Framebuffer.off.cell r c := hframe .fb (by decide)
  have hkept : UnchangedExcept [.fb, .pc, .result] s (s.setFb Framebuffer.off) :=
    (unchanged_setFb s Framebuffer.off).mono (by simp)
  refine ⟨t, hstep, fun r c => ?dark, hcompleted, hkept.trans (hframe.mono (by simp))⟩
  case dark => exact (hcells r c).trans (Framebuffer.cell_off r c)

end Sys2Proof.Proofs
end

section
/-! The obligation of 48_scheduler.md about one timer: whether the accumulated time reaches the interval decides both
the tick and what is retained, so each side of that boundary has its equations. -/
namespace Sys2Proof.Proofs

open Sys2Proof Sys2Proof.Machine

theorem fires_of_reached {t : Timer} {d : Nat} (h : t.interval ≤ t.acc + d) : t.fires d = true := decide_eq_true h

theorem fires_of_not_reached {t : Timer} {d : Nat} (h : t.acc + d < t.interval) : t.fires d = false :=
  decide_eq_false (Nat.not_le_of_lt h)

/-- A tick retains the remainder (R213). -/
theorem advance_acc_of_fires {t : Timer} {d : Nat} (h : t.fires d = true) :
    (t.advance d).acc = t.acc + d - t.interval := if_pos h

/-- Without a tick all the time is retained (R213). -/
theorem advance_acc_of_not_fires {t : Timer} {d : Nat} (h : t.fires d = false) :
    (t.advance d).acc = t.acc + d := if_neg (ne_true_of_eq_false h)

/-- Settles O52: the tick subtracts an interval that the sum has reached, so the subtraction loses nothing. -/
theorem timerTicksAndKeepsRemainder : Obligations.TimerTicksAndKeepsRemainder := by
  refine fun t d => ⟨fun hreached => ?ticks, fun hshort => ?holds, Timer.advance_interval t d⟩
  case ticks =>
    have hfires := fires_of_reached hreached
    refine ⟨hfires, ?_⟩
    rw [advance_acc_of_fires hfires, Nat.sub_add_cancel hreached]
  case holds =>
    have hfires := fires_of_not_reached hshort
    exact ⟨hfires, advance_acc_of_not_fires hfires⟩

end Sys2Proof.Proofs
end

section
/-! The obligation of 60_exceptions.md about raising: an instruction raises or completes, and one that completes returns
`Ok`, so a returned fault is that of a raise. -/
namespace Sys2Proof.Proofs

open Sys2Proof Sys2Proof.Machine

/-- An instruction that answers a fault has raised that very fault, from the state it was run in (R126, R256). -/
theorem exec_eq_raise_of_result {i : Instr} {s t : State} {f : Fault} (hexec : exec i s = .next t)
    (hfault : t.result = .err f) : exec i s = raise f s := by
  rcases exec_cases i s with ⟨g, hraise⟩ | ⟨u, hnext, hcompleted⟩
  case inl =>
    have ht : s.crash.setResult (.err g) = t := Host.Outcome.next.inj (hraise.symm.trans hexec)
    have hg : g = f := CycleResult.err.inj ((congrArg State.result ht).trans hfault)
    exact hg ▸ hraise
  case inr =>
    have hu : u = t := Host.Outcome.next.inj (hnext.symm.trans hexec)
    have hok : t.result = .ok := hu ▸ hcompleted.result
    rw [hok] at hfault
    cases hfault

/-- Settles O21: the state answered is the one that the raise answers, which is the state before with the two writes of a
raise. -/
theorem raiseWritesNothingElse : Obligations.RaiseWritesNothingElse := by
  intro i s t f hexec hfault
  have hraise : raise f s = .next t := (exec_eq_raise_of_result hexec hfault).symm.trans hexec
  exact (Host.Outcome.next.inj hraise).symm

end Sys2Proof.Proofs
end

section
/-! The obligations of 30_encoding.md. A word is rebuilt from its fields, and each family's decoder keeps the fields that
it does not select by, so that decoding and encoding undo each other; the 34 rows exclude one another pairwise, because
any two of them disagree on a bit that both select by. -/
namespace Sys2Proof.Proofs

open Sys2Proof Sys2Proof.Machine

/-! ### Decoding and encoding undo each other (R73, R75) -/

/-- The word of an instruction is decoded to it, in each family by the fields that the family selects by (R74). -/
theorem decode_encode (strict : Bool) (i : Instr) : decode strict (encode i) = .ok i := by
  cases i
  case clearScreen | ret => cases strict <;> rfl
  case jump | call | loadIndex | jumpWithOffset => simp [encode, decode]
  case skipEqImm | skipNeImm | loadImm | addImm | random | draw => simp [encode, decode]
  case skipEqReg | skipNeReg => simp [encode, decode, decodeFamily59]
  case copy | or | and | xor | addReg | subReg | shiftRight | subRev | shiftLeft =>
    simp [encode, decode, decodeFamily8]
  case skipKeyDown | skipKeyUp => simp [encode, decode, decodeFamilyE]
  case getDelay | waitKey | setDelay | setSound | addIndex | fontAddr | bcd | storeRegs | loadRegs =>
    simp [encode, decode, decodeFamilyF]

/-- Settles O1: no bound on the operands is needed, since the field types carry it. -/
theorem decodeAfterEncode : Obligations.DecodeAfterEncode := fun strict i _ => decode_encode strict i

/-- A word whose selecting nibbles are known, rebuilt from the other two (R71). -/
theorem wordXYN_of_fields {w : Word} {op n : Nibble} (hop : fieldOP w = op) (hn : fieldN w = n) :
    wordXYN op (fieldX w) (fieldY w) n = w := by
  subst hop hn; exact wordXYN_fields w

/-- A word whose high nibble and low byte are known, rebuilt from its register field (R71). -/
theorem wordXNN_of_fields {w : Word} {op : Nibble} {nn : Byte} (hop : fieldOP w = op) (hnn : fieldNN w = nn) :
    wordXNN op (fieldX w) nn = w := by
  subst hop hnn; exact wordXNN_fields w

/-- A word whose high nibble is known, rebuilt from its 12-bit field (R71). -/
theorem wordNNN_of_fields {w : Word} {op : Nibble} (hop : fieldOP w = op) : wordNNN op (fieldNNN w) = w := by
  subst hop; exact wordNNN_fields w

/-- A word with its low nibble cleared (R81). -/
theorem and_FFF0 (w : Word) : w &&& 0xFFF0#16 = wordXYN (fieldOP w) (fieldX w) (fieldY w) 0#4 := by
  have h := wordXYN_and (fieldOP w) (fieldX w) (fieldY w) (fieldN w) 0xF#4 0xF#4 0xF#4 0#4
  have hm : wordXYN 0xF#4 0xF#4 0xF#4 0#4 = 0xFFF0#16 := by decide
  rw [wordXYN_fields, hm] at h
  simpa [Nibble.and_15] using h

theorem encode_decodeFamily0 {w : Word} {i : Instr} (h : decodeFamily0 w = .ok i) : encode i = w := by
  unfold decodeFamily0 at h
  split at h
  next hw => cases h; exact hw.symm
  next =>
    split at h
    next hw => cases h; exact hw.symm
    next => cases h

theorem encode_decodeFamily8 {w : Word} {i : Instr} (hop : fieldOP w = 8#4) (h : decodeFamily8 w = .ok i) :
    encode i = w := by
  unfold decodeFamily8 at h
  split at h <;> cases h <;> exact wordXYN_of_fields hop ‹_›

theorem encode_decodeFamilyE {w : Word} {i : Instr} (hop : fieldOP w = 14#4) (h : decodeFamilyE w = .ok i) :
    encode i = w := by
  unfold decodeFamilyE at h
  split at h <;> cases h <;> exact wordXNN_of_fields hop ‹_›

theorem encode_decodeFamilyF {w : Word} {i : Instr} (hop : fieldOP w = 15#4) (h : decodeFamilyF w = .ok i) :
    encode i = w := by
  unfold decodeFamilyF at h
  split at h <;> cases h <;> exact wordXNN_of_fields hop ‹_›

/-- A decoded word of families 5 and 9: what is built from its two register fields, and the low nibble 0 where the
decoder is strict (R81). -/
theorem decodeFamily59_ok {strict : Bool} {w : Word} {i : Instr} {mk : Nibble → Nibble → Instr}
    (h : decodeFamily59 strict w mk = .ok i) : i = mk (fieldX w) (fieldY w) ∧ (strict = true → fieldN w = 0#4) := by
  unfold decodeFamily59 at h
  split at h
  next => cases h
  next hn => cases h; exact ⟨rfl, by simpa using hn⟩

/-- Encoding what was decoded gives the word back, in families 5 and 9 with the low nibble cleared (R81). -/
theorem encode_of_decode {strict : Bool} {w : Word} {i : Instr} (h : decode strict w = .ok i) :
    encode i = if fieldOP w = 0x5#4 ∨ fieldOP w = 0x9#4 then w &&& 0xFFF0#16 else w := by
  unfold decode at h
  split at h
  case h_1 hop => simpa [hop] using encode_decodeFamily0 h
  case h_9 hop => simpa [hop] using encode_decodeFamily8 hop h
  case h_15 hop => simpa [hop] using encode_decodeFamilyE hop h
  case h_16 =>
    have hop : fieldOP w = 15#4 := fieldOP_eq_F w fun n hn e => by interval_cases n <;> contradiction
    simpa [hop] using encode_decodeFamilyF hop h
  case h_6 hop | h_10 hop =>
    obtain ⟨rfl, _⟩ := decodeFamily59_ok h
    rw [and_FFF0, hop]; rfl
  case h_2 hop | h_3 hop | h_11 hop | h_12 hop =>
    cases h; simpa [hop, encode] using wordNNN_of_fields hop
  case h_4 hop | h_5 hop | h_7 hop | h_8 hop | h_13 hop =>
    cases h; simpa [hop, encode] using wordXNN_of_fields hop rfl
  case h_14 hop => cases h; simpa [hop, encode] using wordXYN_of_fields hop rfl

/-- The strict decoder reads no word of families 5 and 9 whose low nibble is not 0 (R81). -/
theorem fieldN_of_decode_strict {w : Word} {i : Instr} (h : decode true w = .ok i)
    (hop : fieldOP w = 0x5#4 ∨ fieldOP w = 0x9#4) : fieldN w = 0#4 := by
  rcases hop with hop | hop <;> simp only [decode, hop] at h <;> exact (decodeFamily59_ok h).2 rfl

/-- Settles O2: the strict decoder accepts a word of families 5 and 9 only when the nibble that encoding clears is 0
already. -/
theorem encodeAfterDecode : Obligations.EncodeAfterDecode := by
  refine fun w i => ⟨fun hstrict => ?strict, encode_of_decode⟩
  rw [encode_of_decode hstrict]
  split
  next hop => rw [and_FFF0]; exact wordXYN_of_fields rfl (fieldN_of_decode_strict hstrict hop)
  next => rfl


/-! ### The rows of the opcode table (R75, R76) -/

/-- The word of an instruction selects the instruction's own row (R75). -/
theorem encodingRow (i : Instr) : Laws.EncodingRow.Statement i := by
  cases i
  exacts [Laws.EncodingRow.clearScreen, Laws.EncodingRow.ret, Laws.EncodingRow.jump _, Laws.EncodingRow.call _,
    Laws.EncodingRow.skipEqImm _ _, Laws.EncodingRow.skipNeImm _ _, Laws.EncodingRow.skipEqReg _ _,
    Laws.EncodingRow.loadImm _ _, Laws.EncodingRow.addImm _ _, Laws.EncodingRow.copy _ _, Laws.EncodingRow.or _ _,
    Laws.EncodingRow.and _ _, Laws.EncodingRow.xor _ _, Laws.EncodingRow.addReg _ _, Laws.EncodingRow.subReg _ _,
    Laws.EncodingRow.shiftRight _ _, Laws.EncodingRow.subRev _ _, Laws.EncodingRow.shiftLeft _ _,
    Laws.EncodingRow.skipNeReg _ _, Laws.EncodingRow.loadIndex _, Laws.EncodingRow.jumpWithOffset _,
    Laws.EncodingRow.random _ _, Laws.EncodingRow.draw _ _ _, Laws.EncodingRow.skipKeyDown _,
    Laws.EncodingRow.skipKeyUp _, Laws.EncodingRow.getDelay _, Laws.EncodingRow.waitKey _,
    Laws.EncodingRow.setDelay _, Laws.EncodingRow.setSound _, Laws.EncodingRow.addIndex _,
    Laws.EncodingRow.fontAddr _, Laws.EncodingRow.bcd _, Laws.EncodingRow.storeRegs _, Laws.EncodingRow.loadRegs _]

/-- Two different rows disagree on a bit that both select by (R76). -/
theorem rows_disagree (strict : Bool) : ∀ a ∈ rowSamples, ∀ b ∈ rowSamples,
    a.matchBits &&& b.mask strict = b.matchBits &&& a.mask strict → a = b := by
  cases strict <;> decide

/-- Every row has a sample that the same words select (R75). -/
theorem exists_sampleRow (i : Instr) : ∃ j ∈ rowSamples, ∀ strict w, j.selectedBy strict w = i.selectedBy strict w := by
  have hlt : i.ctorIdx < rowSamples.length := by cases i <;> exact Nat.le_of_ble_eq_true rfl
  exact ⟨rowSamples[i.ctorIdx], List.getElem_mem hlt, by cases i <;> exact fun _ _ => rfl⟩

theorem selectedBy_iff {strict : Bool} {j : Instr} {w : Word} :
    j.selectedBy strict w = true ↔ w &&& j.mask strict = j.matchBits := beq_iff_eq

/-- A word that selects a row agrees with the row's own words on the bits it selects by (R75). -/
theorem and_of_selectedBy {strict : Bool} {j : Instr} {w m : Word} (h : j.selectedBy strict w = true)
    (hm : j.mask strict &&& m = m) : w &&& m = encode j &&& m := by
  have hw : w &&& j.mask strict = j.matchBits := selectedBy_iff.mp h
  have hj : encode j &&& j.mask strict = j.matchBits := selectedBy_iff.mp (encodingRow j strict)
  calc w &&& m = w &&& j.mask strict &&& m := by rw [BitVec.and_assoc, hm]
    _ = encode j &&& j.mask strict &&& m := by rw [hw, hj]
    _ = encode j &&& m := by rw [BitVec.and_assoc, hm]

/-- A row selects by the high nibble, by it and the low nibble or the low byte, or by the whole word (R75). -/
theorem mask_cases (strict : Bool) (j : Instr) :
    j.mask strict = 0xF000#16 ∨ j.mask strict = 0xF00F#16 ∨ j.mask strict = 0xF0FF#16 ∨ j.mask strict = 0xFFFF#16 := by
  cases strict <;> cases j <;> simp [Instr.mask]

theorem mask_and_F000 (strict : Bool) (j : Instr) : j.mask strict &&& 0xF000#16 = 0xF000#16 := by
  rcases mask_cases strict j with h | h | h | h <;> rw [h] <;> decide

theorem fieldOP_of_selectedBy {strict : Bool} {j : Instr} {w : Word} (h : j.selectedBy strict w = true) :
    fieldOP w = fieldOP (encode j) := by
  have h' := and_of_selectedBy h (mask_and_F000 strict j)
  rw [and_F000, and_F000] at h'
  simpa using congrArg fieldOP h'

theorem fieldN_of_selectedBy {strict : Bool} {j : Instr} {w : Word} (h : j.selectedBy strict w = true)
    (hm : j.mask strict = 0xF00F#16) : fieldN w = fieldN (encode j) := by
  have h' := and_of_selectedBy h (m := 0xF00F#16) (hm ▸ BitVec.and_self)
  rw [and_F00F, and_F00F] at h'
  simpa using congrArg fieldN h'

theorem fieldNN_of_selectedBy {strict : Bool} {j : Instr} {w : Word} (h : j.selectedBy strict w = true)
    (hm : j.mask strict = 0xF0FF#16) : fieldNN w = fieldNN (encode j) := by
  have h' := and_of_selectedBy h (m := 0xF0FF#16) (hm ▸ BitVec.and_self)
  rw [and_F0FF, and_F0FF] at h'
  simpa using congrArg fieldNN h'

/-- A word that selects a row is decoded (R76). -/
theorem decodes_of_selectedBy {strict : Bool} {j : Instr} {w : Word} (h : j.selectedBy strict w = true) :
    ∃ i, decode strict w = .ok i := by
  have hop := fieldOP_of_selectedBy h
  cases j
  case clearScreen | ret =>
    have hw := and_of_selectedBy h (m := 0xFFFF#16) BitVec.and_self
    have hall : ∀ v : Word, v &&& 0xFFFF#16 = v := @BitVec.and_allOnes 16
    rw [hall, hall] at hw
    exact ⟨_, hw ▸ decode_encode strict _⟩
  case copy | or | and | xor | addReg | subReg | shiftRight | subRev | shiftLeft =>
    have hn := fieldN_of_selectedBy h rfl
    simp only [encode, fieldOP_wordXYN, fieldN_wordXYN] at hop hn
    simp [decode, hop, decodeFamily8, hn]
  case skipKeyDown | skipKeyUp =>
    have hnn := fieldNN_of_selectedBy h rfl
    simp only [encode, fieldOP_wordXNN, fieldNN_wordXNN] at hop hnn
    simp [decode, hop, decodeFamilyE, hnn]
  case getDelay | waitKey | setDelay | setSound | addIndex | fontAddr | bcd | storeRegs | loadRegs =>
    have hnn := fieldNN_of_selectedBy h rfl
    simp only [encode, fieldOP_wordXNN, fieldNN_wordXNN] at hop hnn
    simp [decode, hop, decodeFamilyF, hnn]
  case skipEqReg | skipNeReg =>
    simp only [encode, fieldOP_wordXYN] at hop
    cases strict
    case false => simp [decode, hop, decodeFamily59]
    case true =>
      have hn := fieldN_of_selectedBy h rfl
      simp only [encode, fieldN_wordXYN] at hn
      simp [decode, hop, decodeFamily59, hn]
  all_goals
    simp only [encode, fieldOP_wordNNN, fieldOP_wordXNN, fieldOP_wordXYN] at hop
    simp [decode, hop]

/-- A decoded word selects the row of its instruction (R76): outside families 5 and 9 it is the instruction's own word,
and there the low nibble that encoding clears is outside the mask, or is 0 already. -/
theorem selectedBy_of_decode {strict : Bool} {w : Word} {i : Instr} (h : decode strict w = .ok i) :
    i.selectedBy strict w = true := by
  have hrow := encodingRow i strict
  rw [encode_of_decode h] at hrow
  split at hrow
  next hop =>
    cases strict
    case true =>
      rwa [and_FFF0, wordXYN_of_fields rfl (fieldN_of_decode_strict h hop)] at hrow
    case false =>
      have hmask : i.mask false = 0xF000#16 := by
        rcases hop with hop | hop <;> simp only [decode, hop] at h <;> rw [(decodeFamily59_ok h).1] <;> rfl
      rw [selectedBy_iff, hmask] at hrow ⊢
      rwa [BitVec.and_assoc] at hrow
  next => exact hrow

/-- No word selects two rows (R76). -/
theorem selectedRows_subsingleton {strict : Bool} {w : Word} {a b : Instr} (ha : a ∈ rowSamples) (hb : b ∈ rowSamples)
    (hwa : a.selectedBy strict w = true) (hwb : b.selectedBy strict w = true) : a = b := by
  rw [selectedBy_iff] at hwa hwb
  refine rows_disagree strict a ha b hb ?_
  rw [← hwa, ← hwb, BitVec.and_assoc, BitVec.and_assoc, BitVec.and_comm (a.mask strict)]

/-- Settles O3: the row of the decoded instruction selects the word and no other row does; a word that selected a row would
decode. -/
theorem exactlyOneRowOrUnknown : Obligations.ExactlyOneRowOrUnknown := by
  intro strict w
  cases hd : decode strict w with
  | ok i =>
    have hi := selectedBy_of_decode hd
    obtain ⟨j, hj, hji⟩ := exists_sampleRow i
    have hrows : rowSamples.filter (·.selectedBy strict w) = [j] := by
      have hnodup : (rowSamples.filter (·.selectedBy strict w)).Nodup := List.Nodup.filter _ (by decide)
      have hmem : ∀ k, k ∈ rowSamples.filter (·.selectedBy strict w) ↔ k ∈ [j] := by
        simp only [List.mem_filter, List.mem_singleton]
        exact fun k => ⟨fun hk => selectedRows_subsingleton hk.1 hj hk.2 ((hji strict w).trans hi),
          fun e => e ▸ ⟨hj, (hji strict w).trans hi⟩⟩
      exact List.perm_singleton.mp ((List.perm_ext_iff_of_nodup hnodup (List.nodup_singleton j)).mpr hmem)
    exact .inl ⟨i, rfl, hi, by rw [hrows]; rfl⟩
  | error e =>
    cases e with
    | unknownOpcode w' =>
      have hrows : rowSamples.filter (·.selectedBy strict w) = [] := by
        refine List.filter_eq_nil_iff.mpr fun j _ hj => ?_
        obtain ⟨i, hi⟩ := decodes_of_selectedBy hj
        rw [hd] at hi; cases hi
      exact .inr ⟨by rw [decode_error hd], by rw [hrows]; rfl⟩

/-! ### Illegal words (R77 to R81) -/

theorem decodeFamily0_unknown {w : Word} :
    decodeFamily0 w = .error (.unknownOpcode w) ↔ w ≠ 0x00E0#16 ∧ w ≠ 0x00EE#16 := by
  unfold decodeFamily0
  split
  next hw => simp [hw]
  next hw => split <;> simp_all

theorem decodeFamily59_unknown {strict : Bool} {w : Word} {mk : Nibble → Nibble → Instr} :
    decodeFamily59 strict w mk = .error (.unknownOpcode w) ↔ strict = true ∧ fieldN w ≠ 0x0#4 := by
  unfold decodeFamily59
  split <;> simp_all

theorem decodeFamily8_unknown {w : Word} : decodeFamily8 w = .error (.unknownOpcode w) ↔
    fieldN w ∈ [0x8#4, 0x9#4, 0xA#4, 0xB#4, 0xC#4, 0xD#4, 0xF#4] := by
  have hrest : ∀ n : Fin 16, BitVec.ofFin n ∉ [0x0#4, 0x1#4, 0x2#4, 0x3#4, 0x4#4, 0x5#4, 0x6#4, 0x7#4, 0xE#4] →
      BitVec.ofFin n ∈ [0x8#4, 0x9#4, 0xA#4, 0xB#4, 0xC#4, 0xD#4, 0xF#4] := by decide
  unfold decodeFamily8
  split
  case h_10 => exact iff_of_true rfl (hrest (fieldN w).toFin (by simp_all))
  all_goals next hn => simp [hn]

theorem decodeFamilyE_unknown {w : Word} :
    decodeFamilyE w = .error (.unknownOpcode w) ↔ fieldNN w ∉ [0x9E#8, 0xA1#8] := by
  unfold decodeFamilyE
  split <;> simp_all

theorem decodeFamilyF_unknown {w : Word} : decodeFamilyF w = .error (.unknownOpcode w) ↔
    fieldNN w ∉ [0x07#8, 0x0A#8, 0x15#8, 0x18#8, 0x1E#8, 0x29#8, 0x33#8, 0x55#8, 0x65#8] := by
  unfold decodeFamilyF
  split <;> simp_all

/-- Settles O4: in a family with a decoder of its own the clause is that decoder's; the other families reject no word. -/
theorem illegalWordsByFamily : Obligations.IllegalWordsByFamily := by
  intro strict w
  unfold decode
  split
  case h_1 hop => simp [hop, decodeFamily0_unknown]
  case h_6 hop | h_10 hop => simp [hop, decodeFamily59_unknown]
  case h_9 hop => rw [decodeFamily8_unknown]; simp [hop]
  case h_15 hop => rw [decodeFamilyE_unknown]; simp [hop]
  case h_16 =>
    have hop : fieldOP w = 15#4 := fieldOP_eq_F w fun n hn e => by interval_cases n <;> contradiction
    rw [decodeFamilyF_unknown]; simp [hop]
  all_goals next hop => simp [hop]

/-- Settles O5: the ten words are closed terms, which the decoder evaluates. -/
theorem writtenWordsDecode : Obligations.WrittenWordsDecode := by
  unfold Obligations.WrittenWordsDecode
  decide

end Sys2Proof.Proofs
end

section
/-! The invariant of the whole machine, and the obligations of 48_scheduler.md about `advance`. Both are inductions over
the loop of `advance`, packaged once without and once with the assumption that the timers are in range. -/
namespace Sys2Proof.Proofs

open Sys2Proof Sys2Proof.Machine

/-! ### What every iteration of `advance` keeps, the whole keeps -/

/-- What every iteration keeps, the loop keeps (R214). -/
theorem advanceLoop_keeps {P : State → Prop}
    (hstep : ∀ r s u, P s → advanceStep (stepLength r s) s = .next u → P u)
    (fuel r : Nat) {s t : State} (hs : P s) (h : advanceLoop fuel r s = .next t) : P t := by
  induction fuel generalizing r s with
  | zero =>
    rw [advanceLoop] at h
    split at h
    next => cases h; exact hs
    next => cases h
  | succ fuel ih =>
    by_cases hr : r = 0
    · subst hr; rw [advanceLoop_zero] at h; cases h; exact hs
    by_cases hd : stepLength r s = 0
    · simp [advanceLoop, hr, hd] at h
    obtain ⟨u, hu, _⟩ := advanceStep_kept (stepLength r s) s
    have hPu := hstep _ _ _ hs hu
    rw [advanceLoop_step hr hd hu] at h
    split at h
    next => exact ih _ hPu h
    next => cases h; exact hPu

/-- One iteration of the loop, from timers in range (R220). -/
theorem advanceLoop_unfold {r : Nat} {s u : State} (hs : s.timersInRange) (hr : r ≠ 0)
    (hu : advanceStep (stepLength r s) s = .next u) :
    advanceLoop r r s =
      if u.result = .ok then advanceLoop (r - stepLength r s) (r - stepLength r s) u else .next u := by
  have hd := stepLength_pos hr hs
  obtain ⟨fuel, rfl⟩ : ∃ fuel, r = fuel + 1 := ⟨r - 1, by omega⟩
  rw [advanceLoop_step hr hd hu, advanceLoop_fuel (advanceStep_inRange hs hu) (by omega)]

/-- Induction over the loop from timers in range, where it answers a next state (R220). -/
theorem advanceLoop_induction {C : Nat → State → State → Prop}
    (zero : ∀ s, s.timersInRange → C 0 s s)
    (stop : ∀ r s u, r ≠ 0 → s.timersInRange → advanceStep (stepLength r s) s = .next u → u.result ≠ .ok → C r s u)
    (go : ∀ r s u t, r ≠ 0 → s.timersInRange → advanceStep (stepLength r s) s = .next u → u.result = .ok →
      C (r - stepLength r s) u t → C r s t)
    (r : Nat) {s : State} (hs : s.timersInRange) : ∃ t, advanceLoop r r s = .next t ∧ C r s t := by
  induction r using Nat.strong_induction_on generalizing s with
  | _ r ih =>
    by_cases hr : r = 0
    · subst hr; exact ⟨s, advanceLoop_zero 0 s, zero s hs⟩
    obtain ⟨u, hu, _⟩ := advanceStep_kept (stepLength r s) s
    have hd := stepLength_pos hr hs
    rw [advanceLoop_unfold hs hr hu]
    by_cases hok : u.result = .ok
    · obtain ⟨t, ht, hC⟩ := ih (r - stepLength r s) (by omega) (advanceStep_inRange hs hu)
      exact ⟨t, by rw [if_pos hok, ht], go r s u t hr hs hu hok hC⟩
    · exact ⟨u, if_neg hok, stop r s u hr hs hu hok⟩

/-! ### The invariant -/

theorem inv_of_kept {s t : State} (h : Kept s t) (hs : s.Inv) : t.Inv :=
  ⟨h.memory hs.memory, h.stack hs.stack, h.timersInRange hs.timers, h.errors hs.errors⟩

theorem inv_setQueue {s : State} (hs : s.Inv) (q : List HostCall) : (s.setQueue q).Inv :=
  ⟨hs.memory, hs.stack, hs.timers, hs.errors⟩

theorem runOneCycle_keeps_inv {s t : State} (hs : s.Inv) (h : runOneCycle s = .next t) : t.Inv := by
  obtain ⟨u, hu, hkept⟩ := runOneCycle_kept s
  rw [hu] at h; cases h
  exact inv_of_kept hkept hs

theorem advanceStep_keeps_inv (r : Nat) (s u : State) (hs : s.Inv) (h : advanceStep (stepLength r s) s = .next u) :
    u.Inv := by
  obtain ⟨v, hv, hkept⟩ := advanceStep_kept (stepLength r s) s
  rw [hv] at h; cases h
  have hphase1 : (advanceTimers (stepLength r s) s).Inv :=
    ⟨hs.memory, hs.stack, advanceTimers_inRange hs.timers (stepLength_le_untilNext r s), hs.errors⟩
  exact inv_of_kept hkept hphase1

theorem advance_keeps_inv {d : Nat} {s t : State} (hs : s.Inv) (h : advance d s = .next t) : t.Inv := by
  have hok : (s.setResult .ok).Inv := ⟨hs.memory, hs.stack, hs.timers, fun f hf => by cases hf⟩
  exact advanceLoop_keeps advanceStep_keeps_inv d d hok h

/-- What the host's `reset` answers, when it answers a next state (R280). -/
theorem hostReset_next {l : Launch} {s t : State} (h : hostReset l s = .next t) :
    l.config.intervalsPositive = true ∧ t = resetCore l s := by
  unfold hostReset at h
  split at h
  next => cases h
  split at h
  next => cases h
  next hpos => cases h; exact ⟨by simpa using hpos, rfl⟩

theorem resetCore_inv {l : Launch} (h : l.config.intervalsPositive = true) (s : State) : (resetCore l s).Inv := by
  simp only [Config.intervalsPositive, Bool.and_eq_true, decide_eq_true_eq] at h
  obtain ⟨⟨hinstr, hdelay⟩, hsound⟩ := h
  exact ⟨wf_launchMemory l, Nat.zero_le _, ⟨hinstr, hdelay, hsound⟩, fun f hf => by cases hf⟩

theorem hostKeyUp_inv {s : State} (hs : s.Inv) (k : Nibble) : (hostKeyUp k s).Inv := by
  unfold hostKeyUp
  split
  next => exact ⟨hs.memory, hs.stack, hs.timers, hs.errors⟩
  next => exact hs

theorem hostCall_keeps_inv {c : HostCall} {s t : State} (hs : s.Inv) (h : hostCall c s = .next t) : t.Inv := by
  cases c with
  | reset l =>
    obtain ⟨hpos, rfl⟩ := hostReset_next h
    exact resetCore_inv hpos s
  | runOneCycle => exact runOneCycle_keeps_inv hs h
  | advance d => exact advance_keeps_inv hs h
  | advanceOneInstructionTick => exact advance_keeps_inv hs h
  | keyDown k => cases h; exact ⟨hs.memory, hs.stack, hs.timers, hs.errors⟩
  | keyUp k => cases h; exact hostKeyUp_inv hs k

/-- A step is a cycle, or the oldest call that the host has lined up (R245; log 3). -/
theorem step_eq_hostCall {s : State} {c : HostCall} {rest : List HostCall} (h : s.hostQueue = c :: rest) :
    step s = hostCall c (s.setQueue rest) := by
  simp [step, performNext, h]

/-- Settles O58: taking the oldest call off the queue keeps the invariant, and so does every call of the host. -/
theorem stepKeepsInvariant : Obligations.StepKeepsInvariant := by
  intro s t hs h
  cases hq : s.hostQueue with
  | nil => exact runOneCycle_keeps_inv hs (step_eq_runOneCycle hq ▸ h)
  | cons c rest => exact hostCall_keeps_inv (inv_setQueue hs rest) (step_eq_hostCall hq ▸ h)

/-- Settles O59: the reset state lists no byte and no stack entry, its accumulators are 0 and its intervals are not. -/
theorem resetMeetsInvariant : Obligations.ResetMeetsInvariant :=
  ⟨rfl, Nat.zero_le _, by unfold State.timersInRange Timer.inRange; decide, fun f hf => by cases hf⟩

/-! ### Crashed machines -/

/-- What changes on a crashed machine, if anything does, is its timers, its timer values, its keys and what its calls
return (R31, R260). -/
def CoreKept (s t : State) : Prop :=
  UnchangedExcept [.tInstr, .tDelay, .tSound, .dt, .st, .keys, .released, .result, .hostQueue] s t

theorem unchanged_advanceTimers (d : Nat) (s : State) :
    UnchangedExcept [.tInstr, .tDelay, .tSound] s (advanceTimers d s) := by
  intro p hp
  cases p <;> simp_all [Part.same, advanceTimers]

theorem unchanged_setDt (s : State) (v : Byte) : UnchangedExcept [.dt] s (s.setDt v) := by
  intro p hp
  cases p <;> simp_all [Part.same]

theorem unchanged_setSt (s : State) (v : Byte) : UnchangedExcept [.st] s (s.setSt v) := by
  intro p hp
  cases p <;> simp_all [Part.same]

theorem CoreKept.crashed {s t : State} (h : CoreKept s t) (hs : s.crashed = true) : t.crashed = true :=
  (h .crashed (by decide)).trans hs

/-- On a crashed machine an effect is a fault answered or a decrement (R215, R255). -/
theorem tickEffect_coreKept {t : TimerId} {s u : State} (hs : s.crashed = true) (h : tickEffect t s = .next u) :
    CoreKept s u := by
  cases t with
  | instr =>
    have hcycle := (runOneCycle_crashed hs).symm.trans h
    cases hcycle
    exact (unchanged_setResult s _).mono (by decide)
  | delay =>
    cases h
    exact ((unchanged_setDt s _).mono (by decide)).trans ((unchanged_setResult _ _).mono (by decide))
  | sound =>
    cases h
    exact ((unchanged_setSt s _).mono (by decide)).trans ((unchanged_setResult _ _).mono (by decide))

theorem runEffects_coreKept {fired : TimerId → Bool} {l : List TimerId} {s u : State} (hs : s.crashed = true)
    (h : runEffects fired l s = .next u) : CoreKept s u := by
  induction l generalizing s with
  | nil => cases h; exact .refl _ _
  | cons t rest ih =>
    by_cases hf : fired t = true
    · obtain ⟨v, hv, _⟩ := tickEffect_kept t s
      have hsv := tickEffect_coreKept hs hv
      rw [runEffects_cons hf hv] at h
      split at h
      next => exact UnchangedExcept.trans hsv (ih (hsv.crashed hs) h)
      next => cases h; exact hsv
    · rw [runEffects_skip s (by simpa using hf)] at h
      exact ih hs h

theorem advance_coreKept {d : Nat} {s t : State} (hs : s.crashed = true) (h : advance d s = .next t) :
    CoreKept s t := by
  have hstep : ∀ r v u, CoreKept s v → advanceStep (stepLength r v) v = .next u → CoreKept s u := by
    intro r v u hsv hu
    have hphase1 : CoreKept s (advanceTimers (stepLength r v) v) :=
      UnchangedExcept.trans hsv ((unchanged_advanceTimers _ v).mono (by decide))
    exact UnchangedExcept.trans hphase1 (runEffects_coreKept (hphase1.crashed hs) hu)
  exact advanceLoop_keeps hstep d d ((unchanged_setResult s .ok).mono (by decide)) h

theorem unchanged_hostKeyUp (k : Nibble) (s : State) : UnchangedExcept [.keys, .released] s (hostKeyUp k s) := by
  unfold hostKeyUp
  split
  next => exact ((unchanged_setKey s k false).mono (by decide)).trans ((unchanged_setReleased _ _).mono (by decide))
  next => exact .refl _ s

theorem hostCall_coreKept {c : HostCall} {s t : State} (hs : s.crashed = true) (hc : c.isReset = false)
    (h : hostCall c s = .next t) : CoreKept s t := by
  cases c with
  | reset l => cases hc
  | runOneCycle => exact tickEffect_coreKept (t := .instr) hs h
  | advance d => exact advance_coreKept hs h
  | advanceOneInstructionTick => exact advance_coreKept hs h
  | keyDown k => cases h; exact (unchanged_setKey s k true).mono (by decide)
  | keyUp k => cases h; exact (unchanged_hostKeyUp k s).mono (by decide)

/-- Settles O60: no call but a reset reaches an instruction on a crashed machine. -/
theorem crashIsTerminal : Obligations.CrashIsTerminal := by
  intro s t hs hcalls h
  cases hq : s.hostQueue with
  | nil => exact tickEffect_coreKept (t := .instr) hs ((step_eq_runOneCycle hq).symm.trans h)
  | cons c rest =>
    have hqueue : CoreKept s (s.setQueue rest) := (unchanged_setQueue s rest).mono (by decide)
    exact UnchangedExcept.trans hqueue
      (hostCall_coreKept hs (hcalls c (by rw [hq]; rfl)) (step_eq_hostCall hq ▸ h))

end Sys2Proof.Proofs
end

section
/-! The obligations of 48_scheduler.md about `advance`, one tick and a fault in the middle of an iteration. -/
namespace Sys2Proof.Proofs

open Sys2Proof Sys2Proof.Machine

/-! ### The effect of one timer's tick (R215) -/

theorem decrementSaturating_toNat (v : Byte) : (decrementSaturating v).toNat = v.toNat - 1 := by
  have := v.isLt
  rw [decrementSaturating, BitVec.toNat_ofNat, Nat.mod_eq_of_lt (by omega)]

/-- Settles O53: the effect is one write of the timer value and then of the result. -/
theorem tickDecrementsAndSaturates : Obligations.TickDecrementsAndSaturates := by
  refine fun s => ⟨⟨_, rfl, decrementSaturating_toNat s.dt, rfl, ?delay⟩,
    ⟨_, rfl, decrementSaturating_toNat s.st, rfl, ?sound⟩⟩
  case delay => exact ((unchanged_setDt s _).mono (by decide)).trans ((unchanged_setResult _ _).mono (by decide))
  case sound => exact ((unchanged_setSt s _).mono (by decide)).trans ((unchanged_setResult _ _).mono (by decide))

/-! ### The three timers, by their names -/

theorem timersInRange_iff (s : State) : s.timersInRange ↔ ∀ i, (s.timer i).inRange :=
  ⟨fun ⟨hinstr, hdelay, hsound⟩ i => by cases i <;> assumption, fun h => ⟨h .instr, h .delay, h .sound⟩⟩

theorem timer_advanceTimers (d : Nat) (s : State) (i : TimerId) :
    (advanceTimers d s).timer i = (s.timer i).advance d := by
  cases i <;> rfl

theorem timer_of_kept {s t : State} (h : Kept s t) (i : TimerId) : t.timer i = s.timer i := by
  cases i
  case instr => exact h.tInstr
  case delay => exact h.tDelay
  case sound => exact h.tSound

theorem stepLength_le_timer (r : Nat) (s : State) (i : TimerId) : stepLength r s ≤ (s.timer i).untilNext := by
  obtain ⟨hinstr, hdelay, hsound⟩ := stepLength_le_untilNext r s
  cases i <;> assumption

/-- The timers after one iteration are those of its first phase (R214). -/
theorem timer_of_advanceStep {d : Nat} {s u : State} (h : advanceStep d s = .next u) (i : TimerId) :
    u.timer i = (s.timer i).advance d := by
  obtain ⟨v, hv, hkept⟩ := advanceStep_kept d s
  rw [hv] at h; cases h
  exact (timer_of_kept hkept i).trans (timer_advanceTimers d s i)

/-! ### Counting (R219) -/

/-- What `advance` counts over `d`: the timers stay in range and keep their intervals, and without a fault each has gone on
by `d` on its ring (R219, R220). -/
structure Counted (d : Nat) (s t : State) : Prop where
  inRange  : t.timersInRange
  interval : ∀ i, (t.timer i).interval = (s.timer i).interval
  acc      : t.result = .ok → ∀ i, (t.timer i).acc = ((s.timer i).acc + d) % (s.timer i).interval

theorem counted_zero {s : State} (hs : s.timersInRange) : Counted 0 s s :=
  ⟨hs, fun _ => rfl, fun _ i => (Nat.mod_eq_of_lt ((timersInRange_iff s).mp hs i)).symm⟩

/-- One iteration and what the rest of the loop counts. -/
theorem counted_step {r : Nat} {s u t : State} (hs : s.timersInRange) (hu : advanceStep (stepLength r s) s = .next u)
    (h : Counted (r - stepLength r s) u t) : Counted r s t := by
  have htimer := timer_of_advanceStep hu
  refine ⟨h.inRange, fun i => (h.interval i).trans (by rw [htimer i]; rfl), fun hok i => ?_⟩
  have hstep := Timer.advance_acc ((timersInRange_iff s).mp hs i) (stepLength_le_timer r s i)
  have hle := stepLength_le_remaining r s
  calc (t.timer i).acc
      = ((u.timer i).acc + (r - stepLength r s)) % (u.timer i).interval := h.acc hok i
    _ = (((s.timer i).acc + stepLength r s) % (s.timer i).interval + (r - stepLength r s))
          % (s.timer i).interval := by rw [htimer i, hstep, Timer.advance_interval]
    _ = ((s.timer i).acc + r) % (s.timer i).interval := by
        rw [Nat.mod_add_mod, Nat.add_assoc, Nat.add_sub_of_le hle]

theorem advanceLoop_counted (r : Nat) {s : State} (hs : s.timersInRange) :
    ∃ t, advanceLoop r r s = .next t ∧ Counted r s t := by
  refine advanceLoop_induction (C := Counted) (fun s hs => counted_zero hs) ?stop ?go r hs
  case stop =>
    intro r s u _ hs hu hfault
    exact ⟨advanceStep_inRange hs hu, fun i => by rw [timer_of_advanceStep hu i]; rfl, fun hok => absurd hok hfault⟩
  case go => exact fun r s u t _ hs hu _ h => counted_step hs hu h

/-- Settles O55: `advance` is its loop from the state with result `Ok`, whose timers are the same. -/
theorem advanceCountsExactly : Obligations.AdvanceCountsExactly := by
  intro s d hs
  obtain ⟨t, ht, hcounted⟩ := advanceLoop_counted d (s := s.setResult .ok) hs
  refine ⟨t, ht, hcounted.inRange, hcounted.interval .instr, hcounted.interval .delay, hcounted.interval .sound,
    fun hok => ?_⟩
  exact ⟨hcounted.acc hok .instr, hcounted.acc hok .delay, hcounted.acc hok .sound⟩

/-! ### Chunking (R219) -/

/-- The time that all three timers have until one of them ticks (R212). -/
def untilTick (s : State) : Nat := min s.tInstr.untilNext (min s.tDelay.untilNext s.tSound.untilNext)

theorem stepLength_eq (r : Nat) (s : State) : stepLength r s = min r (untilTick s) := rfl

theorem untilTick_le (s : State) (i : TimerId) : untilTick s ≤ (s.timer i).untilNext := by
  cases i
  case instr => exact Nat.min_le_left ..
  case delay => exact (Nat.min_le_right ..).trans (Nat.min_le_left ..)
  case sound => exact (Nat.min_le_right ..).trans (Nat.min_le_right ..)

theorem not_fires_of_lt {t : Timer} {d : Nat} (h : d < t.untilNext) : t.fires d = false :=
  fires_of_not_reached (by unfold Timer.untilNext at h; omega)

theorem advance_of_lt {t : Timer} {a : Nat} (h : a < t.untilNext) : t.advance a = { t with acc := t.acc + a } :=
  congrArg (Timer.mk · _) (advance_acc_of_not_fires (not_fires_of_lt h))

/-- Time in which a timer does not tick can be split off (R213). -/
theorem advance_split {t : Timer} {a : Nat} (h : a < t.untilNext) (b : Nat) :
    (t.advance a).advance b = t.advance (a + b) ∧ (t.advance a).fires b = t.fires (a + b) := by
  have hsum : t.acc + a + b = t.acc + (a + b) := Nat.add_assoc ..
  rw [advance_of_lt h]
  unfold Timer.advance Timer.fires
  rw [hsum]
  exact ⟨rfl, rfl⟩

theorem untilNext_advance {t : Timer} {a : Nat} (h : a < t.untilNext) :
    (t.advance a).untilNext = t.untilNext - a := by
  rw [advance_of_lt h]
  exact Nat.sub_add_eq ..

/-- An iteration in which no timer ticks is its first phase only (R214). -/
theorem advanceStep_quiet {d : Nat} {s : State} (h : d < untilTick s) : advanceStep d s = .next (advanceTimers d s) :=
  runEffects_none (fun i => not_fires_of_lt (Nat.lt_of_lt_of_le h (untilTick_le s i))) _ _

/-- Time in which no timer ticks can be split off an iteration (R219). -/
theorem advanceStep_split {a : Nat} {s : State} (h : a < untilTick s) (b : Nat) :
    advanceStep b (advanceTimers a s) = advanceStep (a + b) s := by
  have hsplit : ∀ i, ((s.timer i).advance a).advance b = (s.timer i).advance (a + b) ∧
      ((s.timer i).advance a).fires b = (s.timer i).fires (a + b) :=
    fun i => advance_split (Nat.lt_of_lt_of_le h (untilTick_le s i)) b
  have hfires : (fun i => ((advanceTimers a s).timer i).fires b) = fun i => (s.timer i).fires (a + b) :=
    funext fun i => by rw [timer_advanceTimers, (hsplit i).2]
  have hinstr : (s.tInstr.advance a).advance b = _ := (hsplit .instr).1
  have hdelay : (s.tDelay.advance a).advance b = _ := (hsplit .delay).1
  have hsound : (s.tSound.advance a).advance b = _ := (hsplit .sound).1
  have hphase1 : advanceTimers b (advanceTimers a s) = advanceTimers (a + b) s := by
    simp only [advanceTimers_eq, hinstr, hdelay, hsound]; rfl
  unfold advanceStep
  rw [hfires, hphase1]; rfl

theorem untilTick_advanceTimers {a : Nat} {s : State} (h : a < untilTick s) :
    untilTick (advanceTimers a s) = untilTick s - a := by
  have huntil : ∀ i, ((advanceTimers a s).timer i).untilNext = (s.timer i).untilNext - a := fun i => by
    rw [timer_advanceTimers, untilNext_advance (Nat.lt_of_lt_of_le h (untilTick_le s i))]
  have hinstr : (advanceTimers a s).tInstr.untilNext = s.tInstr.untilNext - a := huntil .instr
  have hdelay : (advanceTimers a s).tDelay.untilNext = s.tDelay.untilNext - a := huntil .delay
  have hsound : (advanceTimers a s).tSound.untilNext = s.tSound.untilNext - a := huntil .sound
  unfold untilTick
  rw [hinstr, hdelay, hsound, Nat.sub_min_sub_right, Nat.sub_min_sub_right]

/-- Time in which no timer ticks can be split off the loop (R219). -/
theorem advanceLoop_split {a : Nat} {s : State} (hs : s.timersInRange) (ha : a ≠ 0) (h : a < untilTick s) (b : Nat) :
    advanceLoop b b (advanceTimers a s) = advanceLoop (a + b) (a + b) s := by
  have hs' : (advanceTimers a s).timersInRange :=
    advanceTimers_inRange hs ⟨(h.trans_le (untilTick_le s .instr)).le, (h.trans_le (untilTick_le s .delay)).le,
      (h.trans_le (untilTick_le s .sound)).le⟩
  by_cases hb : b = 0
  · subst hb
    have hlength : stepLength a s = a := by rw [stepLength_eq]; omega
    rw [Nat.add_zero, advanceLoop_unfold hs ha (hlength.symm ▸ advanceStep_quiet h), hlength, Nat.sub_self,
      advanceLoop_zero, ite_self]
  · have hlength : stepLength (a + b) s = a + stepLength b (advanceTimers a s) := by
      rw [stepLength_eq, stepLength_eq, untilTick_advanceTimers h]; omega
    obtain ⟨u, hu, _⟩ := advanceStep_kept (stepLength b (advanceTimers a s)) (advanceTimers a s)
    have hu' : advanceStep (stepLength (a + b) s) s = .next u := by rw [hlength, ← advanceStep_split h, hu]
    rw [advanceLoop_unfold hs' hb hu, advanceLoop_unfold hs (by omega) hu', hlength, Nat.add_sub_add_left]

/-- What follows in `q` more units, after `r` units without a fault, is what the loop does in `r + q` (R219). -/
def Chunks (q r : Nat) (s t : State) : Prop := t.result = .ok → advanceLoop q q t = advanceLoop (r + q) (r + q) s

/-- The loop's chunking (R219): a last iteration that ends before the next tick is joined with what follows it, every
other iteration is one of the longer loop. -/
theorem advanceLoop_chunk (r : Nat) {s t : State} (hs : s.timersInRange) (h : advanceLoop r r s = .next t)
    (hok : t.result = .ok) (q : Nat) : advanceLoop q q t = advanceLoop (r + q) (r + q) s := by
  have hgo : ∀ r s u t, r ≠ 0 → s.timersInRange → advanceStep (stepLength r s) s = .next u → u.result = .ok →
      Chunks q (r - stepLength r s) u t → Chunks q r s t := by
    intro r s u t hr hs hu huok ih hok
    rw [ih hok]
    by_cases hlast : r < untilTick s
    case pos =>
      have hlength : stepLength r s = r := by rw [stepLength_eq]; omega
      have hquiet := (hlength ▸ hu).symm.trans (advanceStep_quiet hlast)
      cases hquiet
      rw [hlength, Nat.sub_self, Nat.zero_add, advanceLoop_split hs hr hlast]
    case neg =>
      have hlength : stepLength (r + q) s = stepLength r s := by rw [stepLength_eq, stepLength_eq]; omega
      have hle := stepLength_le_remaining r s
      rw [advanceLoop_unfold hs (by omega) (hlength.symm ▸ hu), if_pos huok, hlength, Nat.sub_add_comm hle]
  obtain ⟨t', ht', hchunk⟩ := advanceLoop_induction (C := Chunks q) (fun s _ _ => by rw [Nat.zero_add])
    (fun r s u _ _ _ hfault hok => absurd hok hfault) hgo r hs
  rw [h] at ht'; cases ht'
  exact hchunk hok

/-- Settles O56: the state in between has the result `Ok` already, so the second call starts its loop from it. -/
theorem advanceChunks : Obligations.AdvanceChunks := by
  intro s t d1 d2 hs h hok
  have ht : t.setResult .ok = t := hok ▸ rfl
  have hchunk := advanceLoop_chunk d1 (s := s.setResult .ok) hs h hok d2
  unfold advance
  rw [ht, hchunk]

/-! ### One instruction tick (R218) -/

/-- Phase 2 when the instruction clock alone has ticked (R216). -/
theorem runEffects_instr_only {fired : TimerId → Bool} (hinstr : fired .instr = true) (hdelay : fired .delay = false)
    (hsound : fired .sound = false) (o : TickOrder) (s : State) :
    runEffects fired o.toList s = runOneCycle s := by
  obtain ⟨u, hu, _⟩ := runOneCycle_kept s
  have hnil : ∀ v, runEffects fired [] v = .next v := fun _ => rfl
  cases o <;>
    simp only [TickOrder.toList, runEffects_skip _ hdelay, runEffects_skip _ hsound, runEffects_cons hinstr hu, hnil,
      ite_self, hu]

/-- Settles O57: the loop is one iteration, of the length of the instruction clock's time to its next tick, in which the
other two clocks do not tick. -/
theorem oneTickRunsOneCycle : Obligations.OneTickRunsOneCycle := by
  intro s hs hdelay hsound
  have hpos := Timer.untilNext_pos hs.1
  have hlength : stepLength s.tInstr.untilNext (s.setResult .ok) = s.tInstr.untilNext := by
    unfold stepLength; simp; omega
  have hstep : advanceStep s.tInstr.untilNext (s.setResult .ok) =
      runOneCycle (advanceTimers s.tInstr.untilNext (s.setResult .ok)) :=
    runEffects_instr_only (fires_of_reached (by simp [State.timer, Timer.untilNext]; omega)) (not_fires_of_lt hdelay)
      (not_fires_of_lt hsound) _ _
  obtain ⟨u, hu, _⟩ := runOneCycle_kept (advanceTimers s.tInstr.untilNext (s.setResult .ok))
  rw [advanceOneInstructionTick, advance, advanceLoop_unfold (s := s.setResult .ok) (u := u) hs (by omega)
    (by rw [hlength, hstep, hu]), hlength, Nat.sub_self, advanceLoop_zero, ite_self, hu]

/-! ### A fault in the middle of an iteration (R217) -/

/-- Which timers tick in an iteration of length `d` (R213). -/
def firedIn (d : Nat) (s : State) (i : TimerId) : Bool := (s.timer i).fires d

/-- The state after the ticks of the delay and sound timers listed, in this order (R215, R216). -/
def afterTicks (fired : TimerId → Bool) : List TimerId → State → State
  | [], s => s
  | .instr :: rest, s => afterTicks fired rest s
  | .delay :: rest, s =>
    afterTicks fired rest (if fired .delay then (s.setDt (decrementSaturating s.dt)).setResult .ok else s)
  | .sound :: rest, s =>
    afterTicks fired rest (if fired .sound then (s.setSt (decrementSaturating s.st)).setResult .ok else s)

/-- Phase 2 performs the ticks before the instruction, none of which can fault, and then goes on (R216). -/
theorem runEffects_append {fired : TimerId → Bool} {before : List TimerId} (h : .instr ∉ before)
    (rest : List TimerId) (s : State) :
    runEffects fired (before ++ rest) s = runEffects fired rest (afterTicks fired before s) := by
  induction before generalizing s with
  | nil => rfl
  | cons t before ih =>
    have ih := ih (List.not_mem_of_not_mem_cons h)
    cases hf : fired t with
    | false =>
      rw [List.cons_append, runEffects_skip _ hf, ih]
      cases t <;> simp [afterTicks, hf] at h ⊢
    | true =>
      cases t with
      | instr => simp at h
      | delay =>
        rw [List.cons_append, runEffects_cons hf rfl, if_pos (State.setResult_result ..), ih, afterTicks, if_pos hf]
        rfl
      | sound =>
        rw [List.cons_append, runEffects_cons hf rfl, if_pos (State.setResult_result ..), ih, afterTicks, if_pos hf]
        rfl

theorem unchanged_afterTicks (fired : TimerId → Bool) (l : List TimerId) (s : State) :
    UnchangedExcept [.dt, .st, .result] s (afterTicks fired l s) := by
  induction l generalizing s with
  | nil => exact .refl _ s
  | cons t rest ih =>
    cases t with
    | instr => exact ih s
    | delay =>
      refine UnchangedExcept.trans ?_ (ih _)
      split
      next => exact ((unchanged_setDt s _).mono (by decide)).trans ((unchanged_setResult _ _).mono (by decide))
      next => exact .refl _ s
    | sound =>
      refine UnchangedExcept.trans ?_ (ih _)
      split
      next => exact ((unchanged_setSt s _).mono (by decide)).trans ((unchanged_setResult _ _).mono (by decide))
      next => exact .refl _ s

/-- `DT` after ticks of which the delay timer's is at most one (R215). -/
theorem afterTicks_dt (fired : TimerId → Bool) {l : List TimerId} (hl : l.Nodup) (s : State) :
    (afterTicks fired l s).dt.toNat =
      s.dt.toNat - (if TimerId.delay ∈ l ∧ fired .delay = true then 1 else 0) := by
  induction l generalizing s with
  | nil => simp [afterTicks]
  | cons t rest ih =>
    obtain ⟨ht, hrest⟩ := List.nodup_cons.mp hl
    cases t <;> rw [afterTicks, ih hrest]
    case instr => simp
    case delay => cases hf : fired .delay <;> simp [ht, decrementSaturating_toNat]
    case sound => cases hf : fired .sound <;> simp

/-- `ST` after ticks of which the sound timer's is at most one (R215). -/
theorem afterTicks_st (fired : TimerId → Bool) {l : List TimerId} (hl : l.Nodup) (s : State) :
    (afterTicks fired l s).st.toNat =
      s.st.toNat - (if TimerId.sound ∈ l ∧ fired .sound = true then 1 else 0) := by
  induction l generalizing s with
  | nil => simp [afterTicks]
  | cons t rest ih =>
    obtain ⟨ht, hrest⟩ := List.nodup_cons.mp hl
    cases t <;> rw [afterTicks, ih hrest]
    case instr => simp
    case delay => cases hf : fired .delay <;> simp
    case sound => cases hf : fired .sound <;> simp [ht, decrementSaturating_toNat]

/-- A cycle that returns a fault writes the crash latch and the result only (R256). -/
theorem unchanged_of_cycle_fault {s t : State} {f : Fault} (h : runOneCycle s = .next t) (hf : t.result = .err f) :
    UnchangedExcept [.crashed, .result] s t := by
  rcases runOneCycle_answer s with ⟨_, hcrashed⟩ | ⟨_, g, hraise⟩ | ⟨_, u, hu, hcompleted⟩
  · cases hcrashed.symm.trans h
    exact (unchanged_setResult s _).mono (by decide)
  · obtain ⟨u, hu, _, _, hframe⟩ := raise_spec g s
    cases (hraise.symm.trans h).symm.trans hu
    exact hframe
  · cases hu.symm.trans h
    exact absurd (hcompleted.result.symm.trans hf) (by simp)

/-- Settles O54: the state in which the cycle starts is the one after phase 1 and the ticks before the instruction; the
fault ends phase 2, and so the iteration, in the state of the cycle. -/
theorem faultDropsLaterTicksOnly : Obligations.FaultDropsLaterTicksOnly := by
  intro s d before after hinstr horder
  have hnodup : (before ++ .instr :: after).Nodup := by
    rw [← horder, (TickOrder.toList_perm _).nodup_iff]; decide
  obtain ⟨hbefore, _, hdisjoint⟩ := List.nodup_append.mp hnodup
  have hnotBefore : TimerId.instr ∉ before := fun hmem => hdisjoint _ hmem _ List.mem_cons_self rfl
  have hticks := unchanged_afterTicks (firedIn d s) before (advanceTimers d s)
  refine ⟨afterTicks (firedIn d s) before (advanceTimers d s), afterTicks_dt _ hbefore _, afterTicks_st _ hbefore _,
    hticks .tInstr (by decide), hticks .tDelay (by decide), hticks .tSound (by decide), ?frame, ?fault⟩
  case frame => exact ((unchanged_advanceTimers d s).mono (by decide)).trans (hticks.mono (by decide))
  case fault =>
    intro u f hcycle hf
    refine ⟨?_, unchanged_of_cycle_fault hcycle hf⟩
    have hinstrFired : firedIn d s .instr = true := hinstr
    calc advanceStep d s
        = runEffects (firedIn d s) (before ++ .instr :: after) (advanceTimers d s) := by rw [← horder]; rfl
      _ = runEffects (firedIn d s) (.instr :: after) (afterTicks (firedIn d s) before (advanceTimers d s)) :=
          runEffects_append hnotBefore _ _
      _ = .next u := by rw [runEffects_cons hinstrFired hcycle, hf]; exact if_neg (by simp)

end Sys2Proof.Proofs
end

section
/-! The obligations of 20_memory.md, 40_values_and_stack.md and 70_reset_and_hazards.md: canonical memory, the stack as a
sequence, and the launch's memory read address by address. -/
namespace Sys2Proof.Proofs

open Sys2Proof Sys2Proof.Machine

/-! ### Memory (20_memory.md) -/

/-- Settles O11: both are laws of the canonical form, and an address is below the memory's size. -/
theorem canonicalMemoriesAreEqualData : Obligations.CanonicalMemoriesAreEqualData :=
  ⟨fun _ _ h h' hget => Memory.eq_of_get_eq h h' hget, fun _ a _ h => Memory.wf_put h a.isLt⟩

theorem addrAdd_one_toNat (a : Address) : (addrAdd a 1).toNat = (a.toNat + 1) % 4096 := addrAdd_toNat a 1

theorem fetch_toNat (s : State) :
    (fetch s).toNat = (s.memRead s.pc).toNat * 256 + (s.memRead (addrAdd s.pc 1)).toNat := wordOfBytes_toNat _ _

theorem ne_addrAdd_one (a : Address) : a ≠ addrAdd a 1 := by
  have h := addrAdd_ne (a := a) (m := 0) (n := 1) (by omega) (by omega) (by omega)
  simpa using h

/-- Settles O12: the ring address after `pc` is the only one with its value, and the second byte stored does not
overwrite the first. -/
theorem fetchIsBigEndianAndCoherent : Obligations.FetchIsBigEndianAndCoherent := by
  refine fun s => ⟨fun b hb => ?bigEndian, fun hi lo hwf => ?coherent⟩
  case bigEndian =>
    have hring : addrAdd s.pc 1 = b := BitVec.eq_of_toNat_eq ((addrAdd_one_toNat s.pc).trans hb.symm)
    rw [fetch_toNat, hring]
  case coherent =>
    rw [fetch_toNat]
    simp only [State.memWrite_pc]
    rw [State.memRead_memWrite_ne _ _ (ne_addrAdd_one s.pc), State.memRead_memWrite_self hwf,
      State.memRead_memWrite_self (State.wf_memWrite hwf _ _)]

/-! ### Values and the call stack (40_values_and_stack.md) -/

/-- Settles O8: up to 15 the value is its own residue modulo 16, so both policies answer it. -/
theorem registerValueAsNibble : Obligations.RegisterValueAsNibble := by
  refine ⟨fun p v => ?_, fun raw => ⟨BitVec.toNat_ofNat raw 4, BitVec.toNat_ofNat raw 12⟩⟩
  rcases nibOfReg_cases p v with ⟨k, hk, hmod, hp⟩ | ⟨herror, hp, hv⟩
  · refine ⟨fun hv => ⟨k, hk, by omega⟩, fun hv hfault => ?_, fun _ _ => ⟨k, hk, hmod⟩⟩
    rcases hp with hwrap | hle
    · rw [hfault] at hwrap; cases hwrap
    · omega
  · refine ⟨fun hle => by omega, fun _ _ => herror, fun _ hwrap => ?_⟩
    rw [hp] at hwrap; cases hwrap

theorem setStack_setStack (s : State) (l l' : List Address) : (s.setStack l).setStack l' = s.setStack l' := rfl

theorem setStack_self {s : State} {l : List Address} (h : s.stack = l) : s.setStack l = s := by subst h; rfl

/-- The pushes of a list, where it fits, append it (R108, R110). -/
theorem pushAll_ok {l : List Address} {s : State} (h : s.stack.length + l.length ≤ 15) :
    pushAll l s = .ok (s.setStack (s.stack ++ l)) := by
  induction l generalizing s with
  | nil => rw [List.append_nil, setStack_self rfl]; rfl
  | cons a rest ih =>
    rw [List.length_cons] at h
    have hpush := push_ok (s := s) (show s.stack.length < 15 by omega) a
    simp only [pushAll, hpush]
    rw [ih (by simp; omega)]
    simp [setStack_setStack]

/-- Popping as often as a list is long, where the list is on top, gives it in reverse order (R109, R110). -/
theorem popTimes_append (base l : List Address) (s : State) :
    popTimes l.length (s.setStack (base ++ l)) = .ok (l.reverse, s.setStack base) := by
  induction l using List.reverseRecOn with
  | nil => rw [List.append_nil]; rfl
  | append_singleton l a ih =>
    have hpop := pop_ok (s := s.setStack (base ++ (l ++ [a]))) (List.append_assoc base l [a]).symm
    rw [List.length_append, List.length_singleton, popTimes, hpop]
    simp only [setStack_setStack, ih, List.reverse_append, List.reverse_singleton, List.singleton_append]

/-- Settles O9: a push appends and a pop removes the last entry, so a sequence of pops undoes a sequence of pushes from its
end. -/
theorem stackIsLifo : Obligations.StackIsLifo := by
  refine fun s a => ⟨fun h => ?push, fun h => push_error h.ge a, pop_error, fun l hempty hl => ?sequence⟩
  case push =>
    have hpop := pop_ok (s := s.setStack (s.stack ++ [a])) rfl
    rw [setStack_setStack, setStack_self rfl] at hpop
    exact ⟨_, push_ok h a, rfl, unchanged_setStack s _, hpop⟩
  case sequence =>
    have hpop := popTimes_append [] l s
    rw [setStack_self hempty] at hpop
    refine ⟨s.setStack l, ?_, rfl, hpop⟩
    rw [pushAll_ok (by simpa [hempty] using hl), hempty, List.nil_append]

/-! ### Reset (10_state.md section 10, 70_reset_and_hazards.md) -/

theorem getElem_replicate {α : Type} (v : α) (k : Nibble) : (Vector.replicate 16 v)[k.toNat]'k.toNat_lt = v :=
  Vector.getElem_replicate _

/-- Settles O13: the fields that are plain values are read off; registers, keys and cells are replicated values. -/
theorem resetState : Obligations.ResetState := by
  refine ⟨getElem_replicate 0#8, fun _ => rfl, rfl, rfl, rfl, rfl, rfl, ?instr, ?delay, ?sound, rfl, rfl, Framebuffer.cell_off,
    getElem_replicate false, rfl⟩
  all_goals decide

theorem hostReset_ok {l : Launch} (hfits : l.image.length ≤ 4096 - l.entry.toNat) (hinstr : 0 < l.config.instrInterval)
    (hdelay : 0 < l.config.delayInterval) (hsound : 0 < l.config.soundInterval) (s : State) :
    hostReset l s = .next (resetCore l s) := by
  have hpos : l.config.intervalsPositive = true := by simp [Config.intervalsPositive, hinstr, hdelay, hsound]
  have hfit : l.imageFits = true := decide_eq_true hfits
  simp [hostReset, hfit, hpos]

/-- The image stands in the launch's memory (R244). -/
theorem launchMemory_image {l : Launch} (hfits : l.image.length ≤ 4096 - l.entry.toNat) {i : Nat}
    (hi : i < l.image.length) : (launchMemory l).get (addrAdd l.entry i).toNat = l.image.getD i 0#8 :=
  Memory.get_load (Memory.wf_loadExtra rfl _) (by omega) hi

/-- Outside the image the launch's memory is what the loader wrote before it (R283). -/
theorem launchMemory_outside {l : Launch} {a : Address} (h : ∀ i : Nat, i < l.image.length → a ≠ addrAdd l.entry i) :
    (launchMemory l).get a.toNat = (Memory.loadExtra [] l.extra).get a.toNat :=
  Memory.get_load_ne h

/-- Settles O14: the machine is built by one record, whose memory is the zeroed one, the loader's other bytes over it and the
image over both; the refusals are the two tests in front of it. -/
theorem resetLoadsTheImage : Obligations.ResetLoadsTheImage := by
  refine fun l s => ⟨fun hfits hinstr hdelay hsound => ?ok, fun hlong => ?tooLong, fun hfits hzero => ?zero⟩
  case ok =>
    refine ⟨resetCore l s, hostReset_ok hfits hinstr hdelay hsound s, rfl, getElem_replicate 0#8, rfl, rfl, rfl, rfl, rfl,
      rfl, rfl, rfl, rfl, fun i hi => launchMemory_image hfits hi, fun a ha => ⟨?listed, ?unlisted⟩, ?fresh, ?kept⟩
    case listed =>
      intro before v after hextra hlast
      refine (launchMemory_outside ha).trans ?_
      rw [hextra]
      exact Memory.get_loadExtra rfl before hlast
    case unlisted => exact fun hnone => (launchMemory_outside ha).trans (Memory.get_loadExtra_ne hnone)
    case fresh =>
      intro hfresh
      simp only [resetCore, hfresh, if_true]
      exact ⟨rfl, rfl, Framebuffer.cell_off, getElem_replicate false, rfl⟩
    case kept => exact fun hkept => by simp [resetCore, hkept]
  case tooLong =>
    have hfit : l.imageFits = false := decide_eq_false (Nat.not_le_of_lt hlong)
    simp [hostCall, hostReset, hfit]
  case zero =>
    have hfit : l.imageFits = true := decide_eq_true hfits
    have hpos : l.config.intervalsPositive = false := by
      simp only [Config.intervalsPositive, Bool.and_eq_false_iff, decide_eq_false_iff_not]
      omega
    simp [hostCall, hostReset, hfit, hpos]

end Sys2Proof.Proofs
end

section
/-! The obligations of 41_cycle.md about a step, and the host's key events of 49_platform.md. -/
namespace Sys2Proof.Proofs

open Sys2Proof Sys2Proof.Machine

/-- Settles O15: a step with no call lined up is a cycle, and a cycle that may fetch runs what it decodes. -/
theorem stepRunsDecodedInstruction : Obligations.StepRunsDecodedInstruction :=
  ⟨fun _ _ hqueue hcrashed hawait hdecode _ =>
    (step_eq_runOneCycle hqueue).trans (runOneCycle_exec hcrashed hawait hdecode),
    fun _ _ _ hqueue => step_eq_hostCall hqueue⟩

/-- Settles O18: the crash latch is tested first, and the answer writes the result only. -/
theorem crashedCycleAnswersOnly : Obligations.CrashedCycleAnswersOnly := by
  intro s hqueue hcrashed
  rw [step_eq_runOneCycle hqueue, runOneCycle_crashed hcrashed]
  exact ⟨_, rfl, rfl, unchanged_setResult s _⟩

theorem unchanged_setAwait (s : State) (k : Option Nibble) : UnchangedExcept [.awaitKey] s (s.setAwait k) := by
  intro p hp
  cases p <;> simp_all [Part.same]

theorem zext8_toNat (k : Nibble) : (zext8 k).toNat = k.toNat := by
  have := k.isLt
  rw [zext8, BitVec.toNat_setWidth, Nat.mod_eq_of_lt (by omega)]

/-- A poll that finds a release stores its key and ends the wait (R123). -/
theorem pollKey_some (k : Nibble) {key : Nibble} {s : State} (h : s.released = some key) :
    pollKey k s = .next ((((s.setReleased none).setReg k (zext8 key)).setAwait none).setResult .ok) := by
  rcases pollKey_cases k s with ⟨hnone, _⟩ | ⟨key', hkey, hp⟩
  · rw [h] at hnone; cases hnone
  · rw [h] at hkey; cases hkey; exact hp

/-- Settles O20: the cycle is a poll, and what it finds goes to the register by four writes, none of which is of `pc` or
memory. -/
theorem keyWaitCompletes : Obligations.KeyWaitCompletes := by
  intro s k key hqueue hcrashed hawait hreleased
  rw [step_eq_runOneCycle hqueue, runOneCycle_poll hcrashed hawait, pollKey_some k hreleased]
  refine ⟨_, rfl, rfl, ?key, rfl, rfl, fun j hj => ?regs, ?frame⟩
  case key => simp [zext8_toNat]
  case regs => exact State.reg_setReg_ne _ _ (List.ne_of_not_mem_cons hj)
  case frame =>
    exact ((unchanged_setReleased s none).mono (by decide)).trans <|
      ((unchanged_setReg _ k _).mono (by decide)).trans <|
      ((unchanged_setAwait _ none).mono (by decide)).trans <| (unchanged_setResult _ .ok).mono (by decide)

/-! ### The host's placed word (log 4, 35) -/

theorem tableWord_of_lt {w : Nat} (h : w < 65536) : tableWord 16 w = BitVec.ofNat 16 w := by
  rw [tableWord, Nat.mod_eq_of_lt (show w < 2 ^ 16 from h)]

theorem fetch_placeWord {s : State} (h : s.mem.wf = true) (w : Word) : fetch (placeWord w s) = w :=
  memRead2_storeWord (s := { s with crashed := false, awaitKey := none, hostQueue := [] }) h s.pc w

theorem unchanged_placeWord (s : State) (w : Word) :
    UnchangedExcept [.mem, .crashed, .awaitKey, .hostQueue] s (placeWord w s) := by
  intro p hp
  cases p
  case mem | crashed | awaitKey | hostQueue => simp at hp
  case regs | keys => exact fun _ => rfl
  case fb => exact fun _ _ => rfl
  all_goals rfl

/-- Settles O16: the state with the word placed may fetch and fetches the word; placing it is two writes of memory over the
three fields it clears. -/
theorem placedWordIsRunNext : Obligations.PlacedWordIsRunNext := by
  intro s w i hwf hw hdecode
  rw [State.withFetchWord, tableWord_of_lt hw]
  refine ⟨?run, fun a ha => ?bytes, fun p hp => ?frame⟩
  case run =>
    rw [step_eq_runOneCycle rfl]
    exact runOneCycle_exec rfl rfl ((fetch_placeWord hwf _).symm ▸ hdecode)
  case bytes =>
    obtain ⟨hpc, hnext⟩ : a ≠ s.pc ∧ a ≠ addrAdd s.pc 1 := by simpa using ha
    exact (State.memRead_memWrite_ne _ _ hnext).trans (State.memRead_memWrite_ne _ _ hpc)
  case frame => exact unchanged_placeWord s _ p hp

/-! ### Key events (R237) -/

/-- Settles O51: a press is one write of the key's level; a release is that write and one of the pending release, made only
if the key was down. -/
theorem keyEvents : Obligations.KeyEvents := by
  refine fun s k => ⟨⟨_, rfl, ?_, fun j hj => ?_, unchanged_setKey s k true⟩, fun hdown => ?pressed, fun hup => ?up⟩
  · rw [hostKeyDown, State.key_setKey, if_pos rfl]
  · rw [hostKeyDown, State.key_setKey, if_neg hj]
  case pressed =>
    have hcall : hostCall (.keyUp k) s = .next ((s.setKey k false).setReleased (some k)) :=
      congrArg Host.Outcome.next (if_pos hdown)
    refine ⟨_, hcall, ?_, fun j hj => ?_, rfl,
      ((unchanged_setKey s k false).mono (by decide)).trans ((unchanged_setReleased _ _).mono (by decide))⟩
    · rw [State.setReleased_key, State.key_setKey, if_pos rfl]
    · rw [State.setReleased_key, State.key_setKey, if_neg hj]
  case up => exact congrArg Host.Outcome.next (if_neg (ne_true_of_eq_false hup))

end Sys2Proof.Proofs
end

section
/-! The obligations about single instructions, 42_control_flow.md to 47_timer_key.md. Every instruction is one of a few
shapes: a control transfer, a skip, or some writes and then the generic `pc` step; each shape has one lemma. -/
namespace Sys2Proof.Proofs

open Sys2Proof Sys2Proof.Machine

/-! ### The shapes -/

/-- Some writes that leave `pc` alone, and then the generic step (R128). -/
theorem stepNext_after {ps : List Part} {s u : State} (h : UnchangedExcept ps s u) (hpc : .pc ∉ ps) :
    ∃ t, stepNext u = .next t ∧ CompletedNext s t ∧ UnchangedExcept [.pc, .result] u t ∧
      UnchangedExcept (ps ++ [.pc, .result]) s t := by
  obtain ⟨t, hstep, ⟨hresult, hnext⟩, hframe⟩ := stepNext_spec u
  have hu : u.pc = s.pc := h .pc hpc
  exact ⟨t, hstep, ⟨hresult, hu ▸ hnext⟩, hframe,
    (h.mono fun _ => List.mem_append_left _).trans (hframe.mono fun _ => List.mem_append_right _)⟩

/-- A skip under a condition that the model tests as a Boolean (R150). -/
theorem skipIf_iff {c : Bool} {taken : Prop} (h : c = true ↔ taken) (s : State) :
    ∃ t, skipIf c s = .next t ∧ CompletedSkip taken s t ∧ UnchangedExcept [.pc, .result] s t :=
  propext h ▸ skipIf_spec c s

theorem regsUnchangedExcept_setReg (s : State) (x : Nibble) (v : Byte) : RegsUnchangedExcept [x] s (s.setReg x v) :=
  fun _ hj => State.reg_setReg_ne s v (List.ne_of_not_mem_cons hj)

/-- One register written, and then the generic step (R161 to R163, R200). -/
theorem setReg_spec (s : State) (x : Nibble) (v : Byte) :
    ∃ t, stepNext (s.setReg x v) = .next t ∧ t.reg x = v ∧ RegsUnchangedExcept [x] s t ∧ CompletedNext s t ∧
      UnchangedExcept [.regs, .pc, .result] s t := by
  obtain ⟨t, hstep, hcompleted, hlast, hframe⟩ := stepNext_after (unchanged_setReg s x v) (by decide)
  have hreg : ∀ j, t.reg j = (s.setReg x v).reg j := hlast .regs (by decide)
  refine ⟨t, hstep, ?_, fun j hj => ?_, hcompleted, hframe⟩
  · rw [hreg, State.reg_setReg_self]
  · rw [hreg, regsUnchangedExcept_setReg s x v j hj]

/-- The index register written, and then the generic step (R181 to R183). -/
theorem setIndex_spec (s : State) (a : Address) :
    ∃ t, stepNext (s.setIndex a) = .next t ∧ t.index = a ∧ CompletedNext s t ∧
      UnchangedExcept [.index, .pc, .result] s t := by
  obtain ⟨t, hstep, hcompleted, hlast, hframe⟩ := stepNext_after (unchanged_setIndex s a) (by decide)
  exact ⟨t, hstep, hlast .index (by decide), hcompleted, hframe⟩

/-! ### Calls (42_control_flow.md) -/

/-- `Call` with room on the stack is a control transfer from the state with the return address pushed (R141). -/
theorem exec_call_push {s : State} (h : s.stack.length < 15) (nnn : Address) :
    exec (.call nnn) s = goTo nnn (s.setStack (s.stack ++ [addrAdd s.pc 2])) := by
  simp only [exec, execCall, push_ok (s := s) h]; rfl

/-- `Call` on a full stack raises (R141, R253). -/
theorem exec_call_full {s : State} (h : 15 ≤ s.stack.length) (nnn : Address) :
    exec (.call nnn) s = raise .stackOverflow s := by
  simp only [exec, execCall, push_error (s := s) h]

/-- Settles O28: the transfer after the push writes `pc` and the result only, so the pushed stack stays. -/
theorem callPushesAndJumps : Obligations.CallPushesAndJumps := by
  refine fun nnn s => ⟨fun hroom => ?_, fun hfull => ?_⟩
  · rw [exec_call_push hroom]
    obtain ⟨t, hgoTo, hpc, hresult, hframe⟩ := goTo_spec nnn (s.setStack (s.stack ++ [addrAdd s.pc 2]))
    exact ⟨t, _, hgoTo, hframe .stack (by decide), addrAdd_toNat s.pc 2, hpc, hresult,
      ((unchanged_setStack s _).mono (by simp)).trans (hframe.mono (by simp))⟩
  · rw [exec_call_full hfull.ge]
    exact raise_spec _ s

/-! ### Skips (43_skip.md) -/

/-- Settles O31: each of the four is a skip under its comparison. -/
theorem comparingSkips : Obligations.ComparingSkips := fun s _ _ _ =>
  ⟨skipIf_iff beq_iff_eq s, skipIf_iff bne_iff_ne s, skipIf_iff beq_iff_eq s, skipIf_iff bne_iff_ne s⟩

section
variable {s : State} {x k : Nibble} {f : Fault}

/-- `SkipKeyDown` on a value that names a key (R155). -/
theorem exec_skipKeyDown_ok (h : nibOfReg s.policy.nibblePolicy (s.reg x) = .ok k) :
    exec (.skipKeyDown x) s = skipIf (s.key k) s := by
  simp only [exec, execSkipKeyDown, h]; rfl

theorem exec_skipKeyDown_error (h : nibOfReg s.policy.nibblePolicy (s.reg x) = .error f) :
    exec (.skipKeyDown x) s = raise f s := by
  simp only [exec, execSkipKeyDown, h]

/-- `SkipKeyUp` on a value that names a key (R156). -/
theorem exec_skipKeyUp_ok (h : nibOfReg s.policy.nibblePolicy (s.reg x) = .ok k) :
    exec (.skipKeyUp x) s = skipIf (!s.key k) s := by
  simp only [exec, execSkipKeyUp, h]; rfl

theorem exec_skipKeyUp_error (h : nibOfReg s.policy.nibblePolicy (s.reg x) = .error f) :
    exec (.skipKeyUp x) s = raise f s := by
  simp only [exec, execSkipKeyUp, h]

/-- `FontAddr` on a value that is a digit (R183). -/
theorem exec_fontAddr_ok (h : nibOfReg s.policy.nibblePolicy (s.reg x) = .ok k) :
    exec (.fontAddr x) s = stepNext (s.setIndex (glyphAddress s.policy k)) := by
  simp only [exec, execFontAddr, h]

theorem exec_fontAddr_error (h : nibOfReg s.policy.nibblePolicy (s.reg x) = .error f) :
    exec (.fontAddr x) s = raise f s := by
  simp only [exec, execFontAddr, h]

end

/-- A register value up to 15, or any under the policy `wrap`, is the nibble of its residue (R106). -/
theorem nibOfReg_ok {p : NibblePolicy} {v : Byte} {k : Nibble} (h : v.toNat ≤ 15 ∨ p = .wrap)
    (hk : k.toNat = v.toNat % 16) : nibOfReg p v = .ok k := by
  rcases nibOfReg_cases p v with ⟨k', hok, hk', _⟩ | ⟨_, hp, hv⟩
  · rwa [BitVec.eq_of_toNat_eq (hk.trans hk'.symm)]
  · rcases h with hle | hwrap
    · omega
    · rw [hp] at hwrap; cases hwrap

/-- A register value above 15 under the policy `fault` is no nibble (R106). -/
theorem nibOfReg_error {p : NibblePolicy} {v : Byte} (hv : 15 < v.toNat) (hp : p = .fault) :
    nibOfReg p v = .error (.nibbleOutOfRange v.toNat) := by
  subst hp
  exact nibbleChecked_error (Nat.not_le_of_lt hv)

/-- Settles O32: the value names the key, and each of the two is a skip under its level. -/
theorem keySkips : Obligations.KeySkips := by
  intro s x k hvalue hk
  have hnib := nibOfReg_ok hvalue hk
  rw [exec_skipKeyDown_ok hnib, exec_skipKeyUp_ok hnib]
  exact ⟨skipIf_iff Iff.rfl s, skipIf_iff (by simp) s⟩

/-- Settles O33: the value is no nibble, so each of the three is the raise. -/
theorem nibbleFaultOfThreeInstructions : Obligations.NibbleFaultOfThreeInstructions := by
  intro s x hvalue hpolicy
  have hnib := nibOfReg_error hvalue hpolicy
  rw [exec_skipKeyDown_error hnib, exec_skipKeyUp_error hnib, exec_fontAddr_error hnib]
  exact ⟨raise_spec _ s, raise_spec _ s, raise_spec _ s⟩

/-! ### Load, arithmetic, shifts, random (44_load_alu.md) -/

theorem sumResult_toNat (a b : Byte) : (sumResult a b).toNat = (a.toNat + b.toNat) % 256 := BitVec.toNat_ofNat ..

theorem diffResult_toNat (a b : Byte) : ((diffResult a b).toNat : Int) = ((a.toNat : Int) - b.toNat) % 256 := by
  rw [diffResult, BitVec.toNat_ofInt, Int.toNat_of_nonneg (Int.emod_nonneg _ (by decide))]; rfl

theorem flagOf_decide_pos {p : Prop} [Decidable p] (h : p) : flagOf (decide p) = 1#8 := by
  rw [decide_eq_true h]; rfl

theorem flagOf_decide_neg {p : Prop} [Decidable p] (h : ¬ p) : flagOf (decide p) = 0#8 := by
  rw [decide_eq_false h]; rfl

/-- A bit of a byte as the flag shows it, by its place value. -/
theorem flagOf_getLsbD_toNat (v : Byte) (i : Nat) : (flagOf (v.getLsbD i)).toNat = v.toNat / 2 ^ i % 2 := by
  rw [BitVec.getLsbD, Nat.testBit_eq_decide_div_mod_eq]
  by_cases h : v.toNat / 2 ^ i % 2 = 1
  · rw [flagOf_decide_pos h, h]; rfl
  · rw [flagOf_decide_neg h, Nat.mod_two_ne_one.mp h]; rfl

/-- Settles O34: each of the three is one register write. -/
theorem loadAddCopyWriteDestination : Obligations.LoadAddCopyWriteDestination := by
  refine fun s x y nn => ⟨setReg_spec s x nn, ?add, setReg_spec s x (s.reg y)⟩
  obtain ⟨t, hexec, hreg, hrest⟩ := setReg_spec s x (sumResult (s.reg x) nn)
  exact ⟨t, hexec, by rw [hreg, sumResult_toNat], hrest⟩

/-- Settles O36: one write of the sum and then of the carry. -/
theorem addRegSumAndCarry : Obligations.AddRegSumAndCarry := by
  intro s x y
  obtain ⟨t, hexec, hflag, hreg, hrest⟩ :=
    setRegFlag_spec s x (sumResult (s.reg x) (s.reg y)) (carryFlag (s.reg x) (s.reg y))
  refine ⟨t, hexec, fun hcarry => ?_, fun hno => ?_, fun hx => ?_, hrest⟩
  · exact hflag.trans (flagOf_decide_pos hcarry)
  · exact hflag.trans (flagOf_decide_neg (Nat.not_lt.mpr hno))
  · rw [hreg hx, sumResult_toNat]

/-- A difference written and then the inverted borrow, whichever register is the minuend (R168, R170). -/
theorem difference_spec (s : State) (x : Nibble) (a b : Byte) :
    ∃ t, stepNext (s.setRegFlag x (diffResult a b) (notBorrowFlag a b)) = .next t ∧
      (b.toNat ≤ a.toNat → t.reg 15#4 = 1#8) ∧ (a.toNat < b.toNat → t.reg 15#4 = 0#8) ∧
      (x ≠ 15#4 → ((t.reg x).toNat : Int) = ((a.toNat : Int) - b.toNat) % 256) ∧
      RegsUnchangedExcept [x, 15#4] s t ∧ CompletedNext s t ∧ UnchangedExcept [.regs, .pc, .result] s t := by
  obtain ⟨t, hexec, hflag, hreg, hrest⟩ := setRegFlag_spec s x (diffResult a b) (notBorrowFlag a b)
  refine ⟨t, hexec, fun hge => ?_, fun hlt => ?_, fun hx => ?_, hrest⟩
  · exact hflag.trans (flagOf_decide_pos hge)
  · exact hflag.trans (flagOf_decide_neg (Nat.not_le_of_lt hlt))
  · rw [hreg hx, diffResult_toNat]

/-- Settles O37: the two differ in which register is the minuend. -/
theorem subtractDifferenceAndBorrow : Obligations.SubtractDifferenceAndBorrow := fun s x y =>
  ⟨difference_spec s x (s.reg x) (s.reg y), difference_spec s x (s.reg y) (s.reg x)⟩

/-- Settles O38: the flag is bit 0, which a shift by one place to the right drops. -/
theorem shiftRightHalvesSource : Obligations.ShiftRightHalvesSource := by
  intro s x y
  obtain ⟨t, hexec, hflag, hreg, hrest⟩ :=
    setRegFlag_spec s x (shiftRightResult (s.reg y)) (shiftRightFlag (s.reg y))
  refine ⟨t, hexec, ?_, fun hx => ?_, hrest⟩
  · rw [hflag, shiftRightFlag, flagOf_getLsbD_toNat, Nat.pow_zero, Nat.div_one]
  · rw [hreg hx, shiftRightResult, BitVec.toNat_ushiftRight, Nat.shiftRight_eq_div_pow, Nat.pow_one]

/-- Settles O39: the flag is bit 7, the only one above the last seven. -/
theorem shiftLeftDoublesSource : Obligations.ShiftLeftDoublesSource := by
  intro s x y
  obtain ⟨t, hexec, hflag, hreg, hrest⟩ :=
    setRegFlag_spec s x (shiftLeftResult (s.reg y)) (shiftLeftFlag (s.reg y))
  refine ⟨t, hexec, ?_, fun hx => ?_, hrest⟩
  · have := (s.reg y).isLt
    rw [hflag, shiftLeftFlag, flagOf_getLsbD_toNat]; omega
  · rw [hreg hx, shiftLeftResult, BitVec.toNat_shiftLeft, Nat.shiftLeft_eq]; omega

theorem unchanged_setDraws (s : State) (n : Nat) : UnchangedExcept [.draws] s (s.setDraws n) := by
  intro p hp
  cases p <;> simp_all [Part.same]

theorem unchanged_randomWrite (s : State) (n : Nat) (x : Nibble) (v : Byte) :
    UnchangedExcept [.regs, .draws] s ((s.setDraws n).setReg x v) :=
  ((unchanged_setDraws s n).mono (by decide)).trans ((unchanged_setReg _ x v).mono (by decide))

/-- Settles O40: one draw counted and one register write, with a mask that no byte can outdo. -/
theorem randomIsMaskedFreeByte : Obligations.RandomIsMaskedFreeByte := by
  intro s x nn
  obtain ⟨t, hexec, hcompleted, hlast, hframe⟩ :=
    stepNext_after (unchanged_randomWrite s (s.draws + 1) x (Config.randomByte s.draws &&& nn)) (by decide)
  have hreg := hlast .regs (by decide)
  have hx : t.reg x = Config.randomByte s.draws &&& nn := (hreg x).trans (State.reg_setReg_self ..)
  refine ⟨t, hexec, hx, ?masked, hlast .draws (by decide), fun j hj => ?others, hcompleted, hframe⟩
  case masked =>
    rw [hx, BitVec.and_assoc, BitVec.and_not_self]
    exact BitVec.and_zero
  case others => exact (hreg j).trans (regsUnchangedExcept_setReg (s.setDraws (s.draws + 1)) x _ j hj)

/-! ### Index register and memory (45_index_memory.md) -/

/-- Settles O41: each of the two is one write of `I`. -/
theorem indexLoadAndAdd : Obligations.IndexLoadAndAdd := by
  refine fun s nnn x => ⟨setIndex_spec s nnn, ?add⟩
  obtain ⟨t, hexec, hindex, hrest⟩ := setIndex_spec s (addrAdd s.index (s.reg x).toNat)
  exact ⟨t, hexec, by rw [hindex, addrAdd_toNat], hrest⟩

/-- Settles O42: the digit is the value's residue, and the glyph's address a ring sum. -/
theorem fontAddrPointsAtGlyph : Obligations.FontAddrPointsAtGlyph := by
  intro s x hvalue
  have hdigit : (nibbleWrap (s.reg x).toNat).toNat = (s.reg x).toNat % 16 := BitVec.toNat_ofNat ..
  rw [exec_fontAddr_ok (nibOfReg_ok hvalue hdigit)]
  obtain ⟨t, hexec, hindex, hrest⟩ := setIndex_spec s (glyphAddress s.policy (nibbleWrap (s.reg x).toNat))
  refine ⟨t, hexec, ?_, hrest⟩
  rw [hindex, glyphAddress, addrAdd_toNat, hdigit]; rfl

theorem hundreds_toNat (v : Byte) : (hundreds v).toNat = v.toNat / 100 := by
  have := v.isLt
  rw [hundreds, BitVec.toNat_ofNat, Nat.mod_eq_of_lt (by omega)]

theorem tens_toNat (v : Byte) : (tens v).toNat = v.toNat / 10 % 10 := by
  rw [tens, BitVec.toNat_ofNat, Nat.mod_eq_of_lt (by omega)]

theorem ones_toNat (v : Byte) : (ones v).toNat = v.toNat % 10 := by
  rw [ones, BitVec.toNat_ofNat, Nat.mod_eq_of_lt (by omega)]

/-- The state after three bytes stored at `I`, `I + 1`, `I + 2` (R184). -/
def storeThree (s : State) (a b c : Byte) : State :=
  ((s.memWrite s.index a).memWrite (addrAdd s.index 1) b).memWrite (addrAdd s.index 2) c

theorem exec_bcd (s : State) (x : Nibble) :
    exec (.bcd x) s = stepNext (storeThree s (hundreds (s.reg x)) (tens (s.reg x)) (ones (s.reg x))) := rfl

theorem unchanged_storeThree (s : State) (a b c : Byte) : UnchangedExcept [.mem] s (storeThree s a b c) :=
  (unchanged_memWrite s _ a).trans ((unchanged_memWrite _ _ b).trans (unchanged_memWrite _ _ c))

/-- The three ring addresses are different, so each byte reads back. -/
theorem memRead_storeThree {s : State} (h : s.mem.wf = true) (a b c : Byte) :
    (storeThree s a b c).memRead (addrAdd s.index 0) = a ∧ (storeThree s a b c).memRead (addrAdd s.index 1) = b ∧
      (storeThree s a b c).memRead (addrAdd s.index 2) = c := by
  have h01 : addrAdd s.index 0 ≠ addrAdd s.index 1 := addrAdd_ne (m := 0) (n := 1) (by omega) (by omega) (by omega)
  have h02 : addrAdd s.index 0 ≠ addrAdd s.index 2 := addrAdd_ne (m := 0) (n := 2) (by omega) (by omega) (by omega)
  have h12 : addrAdd s.index 1 ≠ addrAdd s.index 2 := addrAdd_ne (m := 1) (n := 2) (by omega) (by omega) (by omega)
  have hwf := State.wf_memWrite h s.index a
  refine ⟨?_, ?_, ?_⟩
  · rw [storeThree, State.memRead_memWrite_ne _ _ h02, State.memRead_memWrite_ne _ _ h01, addrAdd_zero,
      State.memRead_memWrite_self h]
  · rw [storeThree, State.memRead_memWrite_ne _ _ h12, State.memRead_memWrite_self hwf]
  · exact State.memRead_memWrite_self (State.wf_memWrite hwf _ b) _ c

theorem memUnchangedExcept_storeThree (s : State) (a b c : Byte) :
    MemUnchangedExcept (accessAddresses s 3) s (storeThree s a b c) := by
  intro d hd
  have hne := ne_of_not_mem_access hd
  have h0 : d ≠ s.index := by simpa using hne 0 (by omega)
  have h1 : d ≠ addrAdd s.index 1 := hne 1 (by omega)
  have h2 : d ≠ addrAdd s.index 2 := hne 2 (by omega)
  rw [storeThree, State.memRead_memWrite_ne _ _ h2, State.memRead_memWrite_ne _ _ h1, State.memRead_memWrite_ne _ _ h0]

/-- Settles O43: three stores and the generic step, which leaves memory as the stores left it. -/
theorem bcdStoresThreeDigits : Obligations.BcdStoresThreeDigits := by
  intro s x
  rw [exec_bcd]
  obtain ⟨t, hstep, hcompleted, hlast, hframe⟩ := stepNext_after
    (unchanged_storeThree s (hundreds (s.reg x)) (tens (s.reg x)) (ones (s.reg x))) (by decide)
  have hmem := hlast .mem (by decide)
  refine ⟨t, hstep, fun hwf => ?digits, fun a ha => ?others, hcompleted, hframe⟩
  case digits =>
    obtain ⟨h0, h1, h2⟩ := memRead_storeThree hwf (hundreds (s.reg x)) (tens (s.reg x)) (ones (s.reg x))
    rw [hmem, hmem, hmem, h0, h1, h2]
    exact ⟨hundreds_toNat _, tens_toNat _, ones_toNat _⟩
  case others => exact (hmem a).trans (memUnchangedExcept_storeThree s _ _ _ a ha)

theorem unchanged_storeBlock (s : State) (n : Nat) (a : Address) :
    UnchangedExcept [.mem, .index] s ((s.storeFirst n).setIndex a) :=
  ((unchanged_storeFirst s n).mono (by decide)).trans ((unchanged_setIndex _ a).mono (by decide))

theorem unchanged_loadBlock (s : State) (n : Nat) (a : Address) :
    UnchangedExcept [.regs, .index] s ((s.loadFirst n).setIndex a) :=
  ((unchanged_loadFirst s n).mono (by decide)).trans ((unchanged_setIndex _ a).mono (by decide))

/-- `I` after a block of `x[0]` to `x[X]` (R185, R186). -/
theorem addrAdd_blockEnd (a : Address) (x : Nibble) :
    (addrAdd a (x.toNat + 1 : Nat)).toNat = (a.toNat + x.toNat + 1) % 4096 := by
  rw [addrAdd_toNat, Nat.add_assoc]

/-- Settles O44: the block of `X + 1` stores reads back register by register; the two writes after it leave memory alone. -/
theorem storeRegsWritesBlock : Obligations.StoreRegsWritesBlock := by
  intro s x
  have hx := x.isLt
  obtain ⟨t, hstep, hcompleted, hlast, hframe⟩ := stepNext_after
    (unchanged_storeBlock s (x.toNat + 1) (addrAdd s.index (x.toNat + 1 : Nat))) (by decide)
  have hmem : ∀ a, t.memRead a = (s.storeFirst (x.toNat + 1)).memRead a := hlast .mem (by decide)
  have hindex : t.index = addrAdd s.index (x.toNat + 1 : Nat) := hlast .index (by decide)
  refine ⟨t, hstep, fun hwf i hi => ?stored, fun a ha => ?others, by rw [hindex, addrAdd_blockEnd], hcompleted, hframe⟩
  case stored => rw [hmem, State.memRead_storeFirst hwf (by omega) (by omega), BitVec.ofNat_toNat, BitVec.setWidth_eq]
  case others => rw [hmem, State.memRead_storeFirst_ne s (ne_of_not_mem_access ha)]

/-- Settles O45: the block of `X + 1` loads, register by register; the two writes after it leave the registers alone. -/
theorem loadRegsReadsBlock : Obligations.LoadRegsReadsBlock := by
  intro s x
  have hx := x.isLt
  obtain ⟨t, hstep, hcompleted, hlast, hframe⟩ := stepNext_after
    (unchanged_loadBlock s (x.toNat + 1) (addrAdd s.index (x.toNat + 1 : Nat))) (by decide)
  have hreg : ∀ j, t.reg j = (s.loadFirst (x.toNat + 1)).reg j := hlast .regs (by decide)
  have hindex : t.index = addrAdd s.index (x.toNat + 1 : Nat) := hlast .index (by decide)
  refine ⟨t, hstep, fun i hi => ?loaded, fun i hi => ?others, by rw [hindex, addrAdd_blockEnd], hcompleted, hframe⟩
  case loaded => rw [hreg, State.reg_loadFirst s (by omega), if_pos (by omega)]
  case others => rw [hreg, State.reg_loadFirst s (by omega), if_neg (by omega)]

/-! ### Timers and keys (47_timer_key.md) -/

/-- Settles O49: each of the three is one write, of a register or of a timer value. -/
theorem timerInstructionsMoveAByte : Obligations.TimerInstructionsMoveAByte := by
  refine fun s x => ⟨setReg_spec s x s.dt, ?delay, ?sound⟩
  case delay =>
    obtain ⟨t, hstep, hcompleted, hlast, hframe⟩ := stepNext_after (unchanged_setDt s (s.reg x)) (by decide)
    exact ⟨t, hstep, hlast .dt (by decide), hcompleted, hframe⟩
  case sound =>
    obtain ⟨t, hstep, hcompleted, hlast, hframe⟩ := stepNext_after (unchanged_setSt s (s.reg x)) (by decide)
    exact ⟨t, hstep, hlast .st (by decide), hcompleted, hframe⟩

/-- Settles O50: one write of the key-wait. -/
theorem waitKeyArms : Obligations.WaitKeyArms := by
  intro s x
  obtain ⟨t, hstep, hcompleted, hlast, hframe⟩ := stepNext_after (unchanged_setAwait s (some x)) (by decide)
  exact ⟨t, hstep, hlast .awaitKey (by decide), hcompleted, hframe⟩

end Sys2Proof.Proofs
end

section
/-! The obligations of 46_display.md and 49_platform.md about drawing, from the cell-by-cell law of a draw. -/
namespace Sys2Proof.Proofs

open Sys2Proof Sys2Proof.Machine

/-- A lit cell goes out exactly when a set bit falls on it (R232). -/
theorem drawnCell_of_lit {px py : Byte} {rows : List Byte} {fb : Framebuffer} {r c : Nat} (h : fb.cell r c = true) :
    drawnCell px py rows fb r c = !spriteBit (px.toNat % 64) (py.toNat % 32) rows r c := by
  rw [drawnCell, h, Bool.true_xor]

/-- A draw reports a collision exactly when a lit cell of the grid goes out (R232). -/
theorem drawSprite_collides_iff (px py : Byte) (rows : List Byte) (fb : Framebuffer) :
    (drawSprite px py rows fb).2 = true ↔
      ∃ r c, r < 32 ∧ c < 64 ∧ fb.cell r c = true ∧ drawnCell px py rows fb r c = false := by
  rw [(drawSprite_spec px py rows fb).2]
  refine exists_congr fun r => exists_congr fun c => and_congr_right fun _ => and_congr_right fun _ => ?_
  rw [and_comm]
  exact and_congr_right fun hlit => by rw [drawnCell_of_lit hlit]; simp

theorem unchanged_drawWrite (s : State) (fb : Framebuffer) (x : Nibble) (v : Byte) :
    UnchangedExcept [.regs, .fb] s ((s.setFb fb).setReg x v) :=
  ((unchanged_setFb s fb).mono (by decide)).trans ((unchanged_setReg _ x v).mono (by decide))

theorem exec_draw (s : State) (x y n : Nibble) : exec (.draw x y n) s =
    stepNext ((s.setFb (drawSprite (s.reg x) (s.reg y) (s.readRows n.toNat) s.fb).1).setReg 15#4
      (flagOf (drawSprite (s.reg x) (s.reg y) (s.readRows n.toNat) s.fb).2)) := rfl

/-- Settles O47: the framebuffer and the flag are those of the platform's draw, whose cells and whose collision have their
law. -/
theorem drawXorsSpriteAndReportsCollision : Obligations.DrawXorsSpriteAndReportsCollision := by
  rintro s x y n rows rfl
  rw [exec_draw]
  obtain ⟨hcells, _⟩ := drawSprite_spec (s.reg x) (s.reg y) (s.readRows n.toNat) s.fb
  have hcollides := drawSprite_collides_iff (s.reg x) (s.reg y) (s.readRows n.toNat) s.fb
  generalize drawSprite (s.reg x) (s.reg y) (s.readRows n.toNat) s.fb = drawn at hcells hcollides ⊢
  obtain ⟨t, hstep, hcompleted, hlast, hframe⟩ :=
    stepNext_after (unchanged_drawWrite s drawn.1 15#4 (flagOf drawn.2)) (by decide)
  have hreg := hlast .regs (by decide)
  have hfb : ∀ r c, t.fb.cell r c = drawn.1.cell r c := hlast .fb (by decide)
  have hflag : t.reg 15#4 = flagOf drawn.2 := (hreg _).trans (State.reg_setReg_self ..)
  have hcell : ∀ r c, r < 32 → c < 64 → t.fb.cell r c = drawnCell (s.reg x) (s.reg y) (s.readRows n.toNat) s.fb r c :=
    fun r c hr hc => (hfb r c).trans (hcells r c hr hc)
  refine ⟨t, hstep, hcell, fun ⟨r, c, hr, hc, hlit, hout⟩ => ?collision, fun hkept => ?clear, fun j hj => ?others, hcompleted,
    hframe⟩
  case collision =>
    have hdrawn : drawn.2 = true := hcollides.mpr ⟨r, c, hr, hc, hlit, (hcell r c hr hc).symm.trans hout⟩
    rw [hflag, hdrawn]; rfl
  case clear =>
    have hdrawn : drawn.2 = false := by
      refine Bool.eq_false_iff.mpr fun htrue => ?_
      obtain ⟨r, c, hr, hc, hlit, hout⟩ := hcollides.mp htrue
      rw [← hcell r c hr hc, hkept r c hr hc hlit] at hout
      cases hout
    rw [hflag, hdrawn]; rfl
  case others => exact (hreg j).trans (regsUnchangedExcept_setReg (s.setFb drawn.1) 15#4 _ j hj)

/-- Settles O48: the second draw complements the same cells again; a cell under a set bit is lit before it exactly when it
was off before the first. -/
theorem doubleDrawRestores : Obligations.DoubleDrawRestores := by
  intro px py rows fb
  obtain ⟨hfirst, _⟩ := drawSprite_spec px py rows fb
  obtain ⟨hsecond, hcollides⟩ := drawSprite_spec px py rows (drawSprite px py rows fb).1
  refine ⟨Framebuffer.ext_cell fun r c => ?restored, hcollides.trans ?offBefore⟩
  case restored =>
    by_cases hgrid : r < 32 ∧ c < 64
    · obtain ⟨hr, hc⟩ := hgrid
      rw [hsecond r c hr hc, drawnCell, hfirst r c hr hc, drawnCell, Bool.xor_assoc, Bool.xor_self, Bool.xor_false]
    · rw [Framebuffer.cell_outside _ hgrid, Framebuffer.cell_outside _ hgrid]
  case offBefore =>
    refine exists_congr fun r => exists_congr fun c => and_congr_right fun hr => and_congr_right fun hc =>
      and_congr_right fun hbit => ?_
    rw [hfirst r c hr hc, drawnCell, hbit]; simp

end Sys2Proof.Proofs
end

section
/-! The obligations about every instruction: which faults it raises, how `pc` goes on, what it writes and what it leaves.
What an instruction that completes may do is one structure, with one lemma for each shape of instruction; the case split
over the 34 variants is made once, in `exec_effect`. -/
namespace Sys2Proof.Proofs

open Sys2Proof Sys2Proof.Machine

/-- What an instruction that completes does, in the terms of the tables of 10_state.md. -/
structure Effect (i : Instr) (s t : State) : Prop where
  result : t.result = .ok
  frame  : UnchangedExcept i.writes s t
  regs   : ∀ j, ¬ i.writesReg j → t.reg j = s.reg j
  bytes  : MemUnchangedExcept (i.storesTo s) s t
  next   : i.pcRule = .next → t.pc.toNat = (s.pc.toNat + 2) % 4096
  skip   : i.pcRule = .skip → t.pc.toNat = (s.pc.toNat + 2) % 4096 ∨ t.pc.toNat = (s.pc.toNat + 4) % 4096
  flag   : i.setsFlag = true → t.reg 15#4 = 0#8 ∨ t.reg 15#4 = 1#8

/-! ### The effect of each shape -/

section
variable {i : Instr} {s u : State}

/-- Writes of the parts `ps`, and then the generic step. -/
theorem effect_next {ps : List Part} (h : UnchangedExcept ps s u) (hpc : .pc ∉ ps) (hrule : i.pcRule = .next)
    (hwrites : i.writes = ps ++ [.pc, .result]) (hregs : ∀ j, ¬ i.writesReg j → u.reg j = s.reg j)
    (hbytes : MemUnchangedExcept (i.storesTo s) s u)
    (hflag : i.setsFlag = true → u.reg 15#4 = 0#8 ∨ u.reg 15#4 = 1#8) :
    ∃ t, stepNext u = .next t ∧ Effect i s t := by
  obtain ⟨t, hstep, ⟨hresult, hnext⟩, hlast, hframe⟩ := stepNext_after h hpc
  have hreg := hlast .regs (by decide)
  have hmem := hlast .mem (by decide)
  refine ⟨t, hstep, hresult, hwrites ▸ hframe, fun j hj => (hreg j).trans (hregs j hj),
    fun a ha => (hmem a).trans (hbytes a ha), fun _ => hnext, fun hskip => ?_, fun hsets => hreg 15#4 ▸ hflag hsets⟩
  rw [hrule] at hskip; cases hskip

/-- Writes of parts other than registers and memory, and then the generic step. -/
theorem effect_next_quiet {ps : List Part} (h : UnchangedExcept ps s u) (hps : .pc ∉ ps ∧ .regs ∉ ps ∧ .mem ∉ ps)
    (hrule : i.pcRule = .next) (hwrites : i.writes = ps ++ [.pc, .result]) (hflag : i.setsFlag = false) :
    ∃ t, stepNext u = .next t ∧ Effect i s t := by
  obtain ⟨hpc, hregs, hmem⟩ := hps
  exact effect_next h hpc hrule hwrites (fun j _ => h .regs hregs j) (fun a _ => h .mem hmem a)
    (fun hsets => by rw [hflag] at hsets; cases hsets)

/-- One register written, and then the generic step. -/
theorem effect_setReg {x : Nibble} (v : Byte) (hrule : i.pcRule = .next) (hwrites : i.writes = [.regs, .pc, .result])
    (hreg : i.writesReg = (· = x)) (hflag : i.setsFlag = false) :
    ∃ t, stepNext (s.setReg x v) = .next t ∧ Effect i s t := by
  refine effect_next (unchanged_setReg s x v) (by decide) hrule hwrites (fun j hj => ?_) (fun _ _ => rfl)
    (fun hsets => by rw [hflag] at hsets; cases hsets)
  rw [hreg] at hj
  exact State.reg_setReg_ne s v hj

/-- A result and then the flag written, and then the generic step. -/
theorem effect_setRegFlag {x : Nibble} (r : Byte) {f : Byte} (hf : f = 0#8 ∨ f = 1#8) (hrule : i.pcRule = .next)
    (hwrites : i.writes = [.regs, .pc, .result]) (hreg : i.writesReg = fun j => j = x ∨ j = 15#4) :
    ∃ t, stepNext (s.setRegFlag x r f) = .next t ∧ Effect i s t := by
  have hflagReg : Config.flagReg = 15#4 := rfl
  have hframe : UnchangedExcept [.regs] s (s.setRegFlag x r f) :=
    (unchanged_setReg s x r).trans (unchanged_setReg _ _ f)
  refine effect_next hframe (by decide) hrule hwrites (fun j hj => ?_) (fun a _ => hframe .mem (by decide) a) (fun _ => ?_)
  · obtain ⟨hx, h15⟩ := not_or.mp (hreg ▸ hj)
    rw [State.reg_setRegFlag, hflagReg, if_neg h15, if_neg hx]
  · rwa [State.reg_setRegFlag, hflagReg, if_pos rfl]

/-- A skip, taken or not. -/
theorem effect_skipIf (c : Bool) (hrule : i.pcRule = .skip) (hwrites : i.writes = [.pc, .result])
    (hflag : i.setsFlag = false) : ∃ t, skipIf c s = .next t ∧ Effect i s t := by
  obtain ⟨t, hstep, ⟨hresult, htaken, hnot⟩, hframe⟩ := skipIf_spec c s
  refine ⟨t, hstep, hresult, hwrites ▸ hframe, fun j _ => hframe .regs (by decide) j, fun a _ => hframe .mem (by decide) a,
    fun hnext => ?_, fun _ => ?_, fun hsets => ?_⟩
  · rw [hrule] at hnext; cases hnext
  · by_cases hc : c = true
    · exact .inr (htaken hc)
    · exact .inl (hnot hc)
  · rw [hflag] at hsets; cases hsets

/-- A control transfer, perhaps after a change of the stack. -/
theorem effect_goTo {ps : List Part} (a : Address) (h : UnchangedExcept ps s u) (hps : .regs ∉ ps ∧ .mem ∉ ps)
    (hrule : i.pcRule = .transfer) (hwrites : i.writes = ps ++ [.pc, .result]) (hflag : i.setsFlag = false) :
    ∃ t, goTo a u = .next t ∧ Effect i s t := by
  obtain ⟨t, hstep, _, hresult, hlast⟩ := goTo_spec a u
  have hregs := Part.same_trans (h .regs hps.1) (hlast .regs (by decide))
  have hmem := Part.same_trans (h .mem hps.2) (hlast .mem (by decide))
  have hframe : UnchangedExcept i.writes s t :=
    hwrites ▸ (h.mono fun _ => List.mem_append_left _).trans (hlast.mono fun _ => List.mem_append_right _)
  refine ⟨t, hstep, hresult, hframe, fun j _ => hregs j, fun a _ => hmem a, fun hnext => ?_, fun hskip => ?_, fun hsets => ?_⟩
  · rw [hrule] at hnext; cases hnext
  · rw [hrule] at hskip; cases hskip
  · rw [hflag] at hsets; cases hsets

end

theorem flagOf_cases (b : Bool) : flagOf b = 0#8 ∨ flagOf b = 1#8 := by
  cases b
  · exact .inl rfl
  · exact .inr rfl

/-! ### The 34 instructions -/

/-- An instruction raises the fault it may raise, or completes with its effect (R126, R127). -/
theorem exec_effect (i : Instr) (s : State) :
    (∃ f, exec i s = raise f s ∧ i.setsFlag = false ∧ (s.stack.length ≤ 15 → i.raises s f)) ∨
      (∃ t, exec i s = .next t ∧ Effect i s t) := by
  cases i
  case ret =>
    rcases pop_cases s with ⟨hempty, _⟩ | ⟨l, a, hl, _⟩
    · exact .inl ⟨_, exec_ret_empty hempty, rfl, fun _ => ⟨rfl, hempty⟩⟩
    · rw [exec_ret_pop hl]
      exact .inr (effect_goTo a (unchanged_setStack s l) (by decide) rfl rfl rfl)
  case call nnn =>
    by_cases hroom : s.stack.length < 15
    · rw [exec_call_push hroom]
      exact .inr (effect_goTo nnn (unchanged_setStack s _) (by decide) rfl rfl rfl)
    · exact .inl ⟨_, exec_call_full (Nat.le_of_not_lt hroom) nnn, rfl,
        fun hle => ⟨rfl, Nat.le_antisymm hle (Nat.le_of_not_lt hroom)⟩⟩
  case skipKeyDown x =>
    rcases nibOfReg_cases s.policy.nibblePolicy (s.reg x) with ⟨k, hk, _⟩ | ⟨herror, hpolicy, hvalue⟩
    · rw [exec_skipKeyDown_ok hk]; exact .inr (effect_skipIf _ rfl rfl rfl)
    · exact .inl ⟨_, exec_skipKeyDown_error herror, rfl, fun _ => ⟨rfl, hvalue, hpolicy⟩⟩
  case skipKeyUp x =>
    rcases nibOfReg_cases s.policy.nibblePolicy (s.reg x) with ⟨k, hk, _⟩ | ⟨herror, hpolicy, hvalue⟩
    · rw [exec_skipKeyUp_ok hk]; exact .inr (effect_skipIf _ rfl rfl rfl)
    · exact .inl ⟨_, exec_skipKeyUp_error herror, rfl, fun _ => ⟨rfl, hvalue, hpolicy⟩⟩
  case fontAddr x =>
    rcases nibOfReg_cases s.policy.nibblePolicy (s.reg x) with ⟨k, hk, _⟩ | ⟨herror, hpolicy, hvalue⟩
    · rw [exec_fontAddr_ok hk]
      exact .inr (effect_next_quiet (unchanged_setIndex s _) (by decide) rfl rfl rfl)
    · exact .inl ⟨_, exec_fontAddr_error herror, rfl, fun _ => ⟨rfl, hvalue, hpolicy⟩⟩
  all_goals right
  case jump nnn => exact effect_goTo nnn (.refl [] s) (by decide) rfl rfl rfl
  case jumpWithOffset nnn => exact effect_goTo _ (.refl [] s) (by decide) rfl rfl rfl
  case skipEqImm | skipNeImm | skipEqReg | skipNeReg => exact effect_skipIf _ rfl rfl rfl
  case loadImm | addImm | copy | getDelay => exact effect_setReg _ rfl rfl rfl rfl
  case or | and | xor => exact effect_setRegFlag _ (.inl rfl) rfl rfl rfl
  case addReg | subReg | shiftRight | subRev | shiftLeft => exact effect_setRegFlag _ (flagOf_cases _) rfl rfl rfl
  case clearScreen => exact effect_next_quiet (unchanged_setFb s _) (by decide) rfl rfl rfl
  case loadIndex | addIndex => exact effect_next_quiet (unchanged_setIndex s _) (by decide) rfl rfl rfl
  case waitKey => exact effect_next_quiet (unchanged_setAwait s _) (by decide) rfl rfl rfl
  case setDelay => exact effect_next_quiet (unchanged_setDt s _) (by decide) rfl rfl rfl
  case setSound => exact effect_next_quiet (unchanged_setSt s _) (by decide) rfl rfl rfl
  case random x nn =>
    exact effect_next (unchanged_randomWrite s _ x _) (by decide) rfl rfl (fun j hj => State.reg_setReg_ne _ _ hj)
      (fun _ _ => rfl) nofun
  case draw x y n =>
    rw [exec_draw]
    exact effect_next (unchanged_drawWrite s _ 15#4 _) (by decide) rfl rfl (fun j hj => State.reg_setReg_ne _ _ hj)
      (fun _ _ => rfl) (fun _ => (State.reg_setReg_self ..).symm ▸ flagOf_cases _)
  case bcd x =>
    rw [exec_bcd]
    exact effect_next (unchanged_storeThree s _ _ _) (by decide) rfl rfl (fun _ _ => rfl)
      (memUnchangedExcept_storeThree s _ _ _) nofun
  case storeRegs x =>
    have hframe := unchanged_storeBlock s (x.toNat + 1) (addrAdd s.index (x.toNat + 1 : Nat))
    exact effect_next hframe (by decide) rfl rfl (fun j _ => hframe .regs (by decide) j)
      (fun a ha => State.memRead_storeFirst_ne s (ne_of_not_mem_access ha)) nofun
  case loadRegs x =>
    have hx := x.isLt
    have hframe := unchanged_loadBlock s (x.toNat + 1) (addrAdd s.index (x.toNat + 1 : Nat))
    have hregs : ∀ j : Nibble, ¬ j.toNat ≤ x.toNat → (s.loadFirst (x.toNat + 1)).reg j = s.reg j := fun j hj => by
      rw [State.reg_loadFirst s (by omega), if_neg (by omega)]
    exact effect_next hframe (by decide) rfl rfl hregs (fun a _ => hframe .mem (by decide) a) nofun

/-! ### The obligations -/

/-- Where an instruction may raise a fault, it does (R127). -/
theorem exec_of_raises {i : Instr} {s : State} {f : Fault} (h : i.raises s f) : exec i s = raise f s := by
  cases i
  case call nnn => obtain ⟨rfl, hfull⟩ := h; exact exec_call_full hfull.ge nnn
  case ret => obtain ⟨rfl, hempty⟩ := h; exact exec_ret_empty hempty
  case skipKeyDown x => obtain ⟨rfl, hvalue, hpolicy⟩ := h; exact exec_skipKeyDown_error (nibOfReg_error hvalue hpolicy)
  case skipKeyUp x => obtain ⟨rfl, hvalue, hpolicy⟩ := h; exact exec_skipKeyUp_error (nibOfReg_error hvalue hpolicy)
  case fontAddr x => obtain ⟨rfl, hvalue, hpolicy⟩ := h; exact exec_fontAddr_error (nibOfReg_error hvalue hpolicy)
  all_goals exact h.elim

/-- What an instruction's answer is: that of a raise, or a state with its effect. -/
theorem exec_next_cases {i : Instr} {s t : State} (h : exec i s = .next t) :
    (∃ f, RaisedOnly f s t ∧ i.setsFlag = false ∧ (s.stack.length ≤ 15 → i.raises s f)) ∨ Effect i s t := by
  rcases exec_effect i s with ⟨f, hraise, hflag, hraises⟩ | ⟨u, hu, heffect⟩
  · obtain ⟨u, hu, hraised⟩ := raise_spec f s
    cases (h.symm.trans hraise).trans hu
    exact .inl ⟨f, hraised, hflag, hraises⟩
  · cases h.symm.trans hu
    exact .inr heffect

/-- Settles O22: an answer with a fault is that of a raise, of the same fault. -/
theorem instructionFaultsExactly : Obligations.InstructionFaultsExactly := by
  refine fun i s f hstack => ⟨fun ⟨t, hexec, hfault⟩ => ?_, fun hraises => ?_⟩
  · rcases exec_next_cases hexec with ⟨g, ⟨_, hresult, _⟩, _, hraises⟩ | heffect
    · cases hfault.symm.trans hresult
      exact hraises hstack
    · exact absurd (hfault.symm.trans heffect.result) (by simp)
  · obtain ⟨t, ht, _, hresult, _⟩ := raise_spec f s
    exact ⟨t, (exec_of_raises hraises).trans ht, hresult⟩

/-- Settles O23: a raise answers a next state, and so does an instruction that completes; a cycle is one of these, a poll or
the answer of a crashed machine. -/
theorem everyCycleAnswers : Obligations.EveryCycleAnswers := by
  refine ⟨fun i s => ?_, fun s => ?_⟩
  · rcases exec_effect i s with ⟨f, hraise, _⟩ | ⟨t, ht, _⟩
    · exact ⟨_, hraise⟩
    · exact ⟨t, ht⟩
  · obtain ⟨t, ht, _⟩ := runOneCycle_kept s
    exact ⟨t, ht⟩

/-- Settles O24: an instruction that returns `Ok` has not raised. -/
theorem completedInstructionStepsPc : Obligations.CompletedInstructionStepsPc := by
  intro i s t hexec hok
  rcases exec_next_cases hexec with ⟨f, ⟨_, hresult, _⟩, _⟩ | heffect
  · exact absurd (hok.symm.trans hresult) (by simp)
  · exact ⟨heffect.next, heffect.skip⟩

/-- Settles O25: a raise keeps everything but the crash latch and the result, registers and memory included; an instruction
that completes has the frame of its effect. -/
theorem instructionsWriteOnlyTheirState : Obligations.InstructionsWriteOnlyTheirState := by
  intro i s t hexec
  rcases exec_next_cases hexec with ⟨f, ⟨_, hresult, hframe⟩, _⟩ | heffect
  · exact ⟨fun hok => absurd (hok.symm.trans hresult) (by simp), fun j _ => hframe .regs (by decide) j,
      fun a _ => hframe .mem (by decide) a, fun _ => hframe⟩
  · exact ⟨fun _ => heffect.frame, heffect.regs, heffect.bytes, fun hfault => absurd heffect.result hfault⟩

/-- Settles O26: no instruction of the flag table raises, and a raise writes no register. -/
theorem flagRegisterRule : Obligations.FlagRegisterRule := by
  intro i s t hexec
  rcases exec_next_cases hexec with ⟨f, ⟨_, _, hframe⟩, hflag, _⟩ | heffect
  · exact ⟨fun hsets => absurd (hflag.symm.trans hsets) (by simp), fun _ _ => hframe .regs (by decide) 15#4⟩
  · exact ⟨heffect.flag, fun _ => heffect.regs 15#4⟩

end Sys2Proof.Proofs
end
